-- ==== Sys2Proof/Word.lean ====
section
/-! DEFINITION. The two word types of the core (spec/00_scope.md R9, R12): bytes of the byte strings it works on,
and the 32-bit words its registers and the ChaCha state hold. -/

namespace Sys2Proof

/-- One byte of a byte string (R11). -/
abbrev Byte := BitVec 8

/-- A 32-bit register value or ChaCha word; `+` on it is addition modulo 2^32 (R12). -/
abbrev Word := BitVec 32

end Sys2Proof
end

