-- ==== Sys2Proof/Syntax.lean ====
section
/-! DEFINITION. The command set of spec/30_encoding.md R82 as one inductive type: one constructor per row of
spec/opcode_table.json. Every command carries the 7-bit LEN field of its word (R81), legal or not: legality is
WellFormed's and the issue logic's (R85, R102 check 3). -/

namespace Sys2Proof

/-- A command: its opcode is its constructor, `len` the LEN field `w[14:8]` of its word (R80, R81). -/
inductive Instr where
  /-- CHACHA_BLOCK (R132) -/
  | chachaBlock (len : BitVec 7)
  /-- CHACHA_XOR (R133) -/
  | chachaXor (len : BitVec 7)
  /-- POLY_INIT (R150) -/
  | polyInit (len : BitVec 7)
  /-- POLY_UPDATE (R151) -/
  | polyUpdate (len : BitVec 7)
  /-- POLY_FINAL (R152) -/
  | polyFinal (len : BitVec 7)
  /-- AEAD_SEAL_INIT (R167) -/
  | aeadSealInit (len : BitVec 7)
  /-- AEAD_OPEN_INIT (R168) -/
  | aeadOpenInit (len : BitVec 7)
  /-- AEAD_AAD (R170) -/
  | aeadAad (len : BitVec 7)
  /-- AEAD_ENC (R172) -/
  | aeadEnc (len : BitVec 7)
  /-- AEAD_TAG (R174) -/
  | aeadTag (len : BitVec 7)
  /-- AEAD_ABSORB (R175) -/
  | aeadAbsorb (len : BitVec 7)
  /-- AEAD_VERIFY (R176) -/
  | aeadVerify (len : BitVec 7)
  /-- AEAD_DECRYPT (R178) -/
  | aeadDecrypt (len : BitVec 7)
  /-- ABORT (R190) -/
  | abort (len : BitVec 7)
  /-- ZEROIZE (R191) -/
  | zeroize (len : BitVec 7)
  deriving DecidableEq, Repr

end Sys2Proof
end

