-- ==== Sys2Proof/WellFormed.lean ====
section
/-! DEFINITION. Which commands are well formed: the legal LEN of each opcode (spec/30_encoding.md R82, R85). -/

namespace Sys2Proof

/-- LEN must be 0 (R85: CHACHA_BLOCK, POLY_FINAL, the AEAD INITs, AEAD_TAG, AEAD_VERIFY, ABORT, ZEROIZE). -/
def lenIsZero (len : BitVec 7) : Bool := len.toNat == 0

/-- LEN must be 32 (R85: POLY_INIT). -/
def lenIsKey (len : BitVec 7) : Bool := len.toNat == 32

/-- LEN must be 0 to 64 (R85: the commands that take data). -/
def lenIsData (len : BitVec 7) : Bool := decide (len.toNat ≤ 64)

/-- A command is well formed when its LEN is in the legal set of its opcode (R82, R85). -/
def Instr.wf : Instr → Bool
  | .chachaBlock len => lenIsZero len
  | .chachaXor len => lenIsData len
  | .polyInit len => lenIsKey len
  | .polyUpdate len => lenIsData len
  | .polyFinal len => lenIsZero len
  | .aeadSealInit len => lenIsZero len
  | .aeadOpenInit len => lenIsZero len
  | .aeadAad len => lenIsData len
  | .aeadEnc len => lenIsData len
  | .aeadTag len => lenIsZero len
  | .aeadAbsorb len => lenIsData len
  | .aeadVerify len => lenIsZero len
  | .aeadDecrypt len => lenIsData len
  | .abort len => lenIsZero len
  | .zeroize len => lenIsZero len

end Sys2Proof
end

