-- ==== Sys2Proof/Decode.lean ====
section
/-! DEFINITION. The one command format CMDW (spec/30_encoding.md R80 to R84): the decoder, total on every 32-bit word,
and the encoder. The opcode numbers are those of R82. -/

namespace Sys2Proof

/-- Why a word is no command (R84); the core reports either as ILLEGAL. -/
inductive DecodeError where
  /-- `w[7:5]` or `w[31:15]` is not 0. -/
  | reservedBits
  /-- `w[4:0]` is one of the unassigned opcodes. -/
  | unassignedOpcode (opc : BitVec 5)
  deriving DecidableEq, Repr

/-- The command a word stands for, or why it stands for none (R80, R82, R83, R84). LEN is not checked here: it is the only
free field of a row (R83), and an illegal LEN is another error (R85). -/
def decode (w : Word) : Except DecodeError Instr :=
  if w.extractLsb' 5 3 != 0#3 || w.extractLsb' 15 17 != 0#17 then .error .reservedBits
  else
    let len := w.extractLsb' 8 7
    match (w.extractLsb' 0 5).toNat with
    | 0x01 => .ok (.chachaBlock len)
    | 0x02 => .ok (.chachaXor len)
    | 0x03 => .ok (.polyInit len)
    | 0x04 => .ok (.polyUpdate len)
    | 0x05 => .ok (.polyFinal len)
    | 0x08 => .ok (.aeadSealInit len)
    | 0x09 => .ok (.aeadOpenInit len)
    | 0x0A => .ok (.aeadAad len)
    | 0x0B => .ok (.aeadEnc len)
    | 0x0C => .ok (.aeadTag len)
    | 0x0D => .ok (.aeadAbsorb len)
    | 0x0E => .ok (.aeadVerify len)
    | 0x0F => .ok (.aeadDecrypt len)
    | 0x1E => .ok (.abort len)
    | 0x1F => .ok (.zeroize len)
    | _ => .error (.unassignedOpcode (w.extractLsb' 0 5))

/-- OPC of a command (R82). -/
def Instr.opc : Instr → BitVec 5
  | .chachaBlock _ => 0x01#5
  | .chachaXor _ => 0x02#5
  | .polyInit _ => 0x03#5
  | .polyUpdate _ => 0x04#5
  | .polyFinal _ => 0x05#5
  | .aeadSealInit _ => 0x08#5
  | .aeadOpenInit _ => 0x09#5
  | .aeadAad _ => 0x0A#5
  | .aeadEnc _ => 0x0B#5
  | .aeadTag _ => 0x0C#5
  | .aeadAbsorb _ => 0x0D#5
  | .aeadVerify _ => 0x0E#5
  | .aeadDecrypt _ => 0x0F#5
  | .abort _ => 0x1E#5
  | .zeroize _ => 0x1F#5

/-- The LEN field of a command (R81). -/
def Instr.lenField : Instr → BitVec 7
  | .chachaBlock len => len
  | .chachaXor len => len
  | .polyInit len => len
  | .polyUpdate len => len
  | .polyFinal len => len
  | .aeadSealInit len => len
  | .aeadOpenInit len => len
  | .aeadAad len => len
  | .aeadEnc len => len
  | .aeadTag len => len
  | .aeadAbsorb len => len
  | .aeadVerify len => len
  | .aeadDecrypt len => len
  | .abort len => len
  | .zeroize len => len

/-- The command word `word(LEN) = OPC | LEN<<8` of R82. -/
def encode (i : Instr) : Word := i.opc.setWidth 32 ||| i.lenField.setWidth 32 <<< 8

/-- The host's question about one opcode-table row: the command in the `nbits` low bits of `w`, the bits above them 0. A
command is one 32-bit word (R80), so a longer one is none. -/
def decodeTableWord (nbits w : Nat) : Option Instr :=
  if nbits ≤ 32 then (decode (BitVec.ofNat 32 (w % 2 ^ nbits))).toOption else none

end Sys2Proof
end

