-- ==== Sys2Proof/Machine/Bytes.lean ====
section
/-! DEFINITION. Byte strings and their byte order (spec/00_scope.md R11 to R13, spec/20_memory.md R64). A byte string is a
list of bytes, byte 0 first; everything is little-endian. -/

namespace Sys2Proof.Machine

/-- `B[a:b]`: bytes `a` to `b-1` (R11). -/
def slice (B : List Byte) (a b : Nat) : List Byte := (B.take b).drop a

/-- `n` zero bytes. -/
def zeros (n : Nat) : List Byte := List.replicate n 0#8

/-- `LE(B)`: the unsigned integer whose little-endian byte string is `B` (R13). -/
def le : List Byte → Nat
  | [] => 0
  | b :: B => b.toNat + 256 * le B

/-- `LEbytes_n(v)`: the n-byte little-endian string of `v mod 2^(8n)` (R13). -/
def leBytes : Nat → Nat → List Byte
  | 0, _ => []
  | n + 1, v => BitVec.ofNat 8 v :: leBytes n (v / 256)

/-- `LE32(B, j) = LE(B[4j:4j+4])`, word `j` of `B` (R13). -/
def le32 (B : List Byte) (j : Nat) : Word := BitVec.ofNat 32 (le (slice B (4 * j) (4 * j + 4)))

/-- The little-endian concatenation of words (R64, R88). -/
def bytesOf (ws : List Word) : List Byte := ws.flatMap fun w => leBytes 4 w.toNat

/-- The byte string a register group holds: byte `4j+i` is bits `[8i+7:8i]` of word `j` (R64). -/
def groupBytes {n : Nat} (v : Vector Word n) : List Byte := bytesOf v.toList

/-- The register group that holds the byte string `B` (R64): word `j` is `LE32(B, j)`. -/
def groupOfBytes (n : Nat) (B : List Byte) : Vector Word n := Vector.ofFn fun j => le32 B j

/-- Bytewise exclusive-or of two strings of one length. -/
def xorBytes (A B : List Byte) : List Byte := List.zipWith (· ^^^ ·) A B

/-- The consecutive parts of at most `n` bytes: part `i` is `B[ni : min(ni+n, len(B))]`, for i = 0 .. ceil(len(B)/n)-1
(R126 with n = 64, R144 with n = 16). -/
def chunks (n : Nat) (B : List Byte) : List (List Byte) :=
  (List.range ((B.length + n - 1) / n)).map fun i => slice B (n * i) (min (n * i + n) B.length)

/-- `rotl(a, n)` on 32-bit words, for 0 < n < 32 (R12). -/
def rotl (a : Word) (n : Nat) : Word := a <<< n ||| a >>> (32 - n)

end Sys2Proof.Machine
end

