-- ==== Sys2Proof/Config.lean ====
section
/-! DEFINITION. What the spec leaves open: the parameters of spec/00_scope.md R10 (the table at the end of
spec/92_eei_decisions.md) and the one free value of spec/93_implementation_defined.md U1. None has a body, so nothing can
be proved about a value of one. -/

namespace Sys2Proof

/-- FREE VALUE (U1, R107; log entry 1): what a read of `COUNTER`, `AADLEN`, `CTLEN`, `TAG` or `DOUT` returns while the
core is busy. The `n`-th such read returns `busyReadValue n`; the model's own counter `State.draws` gives `n`. -/
opaque Config.busyReadValue : Nat → Word

/-- The bus address of register offset 0x000, in units of 512 bytes (R10, D5, U9). -/
opaque Config.coreBaseIndex : Nat

/-- `CORE_BASE` (R10): "a multiple of 512 so that the offset is address bits [8:0]". -/
def Config.coreBase : Nat := 512 * Config.coreBaseIndex

/-- `BUS_ERROR_RESPONSE` (R10, R63, D7): whether the bus also returns an error to the master on a refused access. -/
opaque Config.busErrorResponse : Bool

/-- `IRQ_LINE` (R10, R211, D21): the line of the host's interrupt controller that `irq` drives. -/
opaque Config.irqLine : Nat

/-- `IRQ_LINE` (R10, R211, D21): the priority the host's interrupt controller gives that line. -/
opaque Config.irqPriority : Nat

/-- Clock cycles beyond the first that a command takes, by its opcode and LEN alone (R10, R251). -/
opaque Config.extraLatency : BitVec 5 → BitVec 7 → Nat

/-- `LATENCY(cmd)` (R10, R250, R251, D20, U10): finite, at least 1, a function of opcode and LEN only. No rule of the
model depends on its value: the model takes no time (R105; log entry 3). -/
def Config.latency (opc : BitVec 5) (len : BitVec 7) : Nat := Config.extraLatency opc len + 1

end Sys2Proof
end

