-- ==== Sys2Proof/Machine/State.lean ====
section
/-! DEFINITION. The state of the core (spec/10_state.md R20 to R46), plain data, with the host port's inputs and transfer
log, the state after reset (spec/70_reset_and_hazards.md R230), and the reasons a step could stop. -/

namespace Sys2Proof.Machine

/-- `STATUS.PHASE` (R31). The values 0x3, 0x7, 0xC to 0xF "never occur" (U6), so they have no constructor. -/
inductive Phase where
  | idle
  | mac
  | macTail
  | sealAad
  | sealData
  | sealTail
  | openAad
  | openData
  | openTail
  | openDecrypt
  deriving DecidableEq, Repr

/-- `STATUS.ERRCODE` (R30, R200). The codes 10 to 15 are "never produced" (U7), so they have no constructor. -/
inductive ErrCode where
  /-- 0 NONE: no error since ERR was last cleared -/
  | noError
  | busy
  | illegal
  | badlen
  | sequence
  | key
  | nonce
  | auth
  | locked
  | bus
  deriving DecidableEq, Repr

/-- What may happen at the core's port, one at a time (R17, R60, R68). `width` is the access width in bytes. -/
inductive Input where
  /-- a host read at byte offset `off` of the window -/
  | read (off : BitVec 9) (width : Nat)
  /-- a host write at byte offset `off` of the window -/
  | write (off : BitVec 9) (width : Nat) (wdata : Word)
  /-- the turn of the core's own step: the completion of the command in flight, if there is one (R104) -/
  | coreTurn
  /-- the level driven on the reset input `rst_n` (R230) -/
  | rstN (level : Bool)
  deriving DecidableEq, Repr

/-- What the port answered to one performed access: the read data, and whether the bus also signalled an error response
(R60, R63). -/
inductive Transfer where
  | read (off : BitVec 9) (rdata : Word) (busError : Bool)
  | write (off : BitVec 9) (busError : Bool)
  deriving DecidableEq, Repr

/-- The core's whole state. `ID` is hard-wired (R21), `CMD` holds nothing (R23), `STATUS.BUSY` is `pending` (R44) and
`KEYV`, `NONCEV`, `RTAGV` are the masks (R32, R33): they are computed, never stored twice. -/
structure State where
  /-- MODEL's own: the accesses and turns still to happen at the port, the next one first (log entry 2). -/
  inputs : List Input
  /-- MODEL's own: the port's answers so far, the oldest first (log entry 2). -/
  transfers : List Transfer
  /-- MODEL's own: how many free values have been drawn (log entry 1). -/
  draws : Nat
  /-- the level of the reset input `rst_n` (R60, R230) -/
  rstN : Bool
  /-- `CTRL.IE` (R22) -/
  ie : Bool
  /-- `CTRL.EIE` (R22) -/
  eie : Bool
  /-- `STATUS.DONE` (R26) -/
  done : Bool
  /-- `STATUS.ERR` (R27) -/
  err : Bool
  /-- `STATUS.AUTH_OK` (R28) -/
  authOk : Bool
  /-- `STATUS.CWRAP` (R29) -/
  cwrap : Bool
  /-- `STATUS.ERRCODE` (R30) -/
  errcode : ErrCode
  /-- `STATUS.PHASE` (R31) -/
  phase : Phase
  /-- `COUNTER` (R34) -/
  counter : Word
  /-- `AADLEN` (R35) -/
  aadlen : BitVec 64
  /-- `CTLEN` (R35) -/
  ctlen : BitVec 64
  /-- `KEY0` to `KEY7` (R36) -/
  key : Vector Word 8
  /-- `NONCE0` to `NONCE2` (R37) -/
  nonce : Vector Word 3
  /-- `TAG0` to `TAG3` (R40) -/
  tag : Vector Word 4
  /-- `RTAG0` to `RTAG3` (R41) -/
  rtag : Vector Word 4
  /-- `DIN0` to `DIN15` (R38) -/
  din : Vector Word 16
  /-- `DOUT0` to `DOUT15` (R38) -/
  dout : Vector Word 16
  /-- `KMASK` (R42) -/
  kmask : BitVec 8
  /-- `NMASK` (R42) -/
  nmask : BitVec 3
  /-- `RMASK` (R42) -/
  rmask : BitVec 4
  /-- `R`, the clamped r (R43) -/
  polyR : BitVec 128
  /-- `S` (R43) -/
  polyS : BitVec 128
  /-- `ACC`, an integer with 0 <= ACC < 2^130-5 (R43; the bound is Safety's invariant) -/
  acc : Nat
  /-- `PENDING`: none, or the (opcode, LEN) of the accepted command in flight (R44) -/
  pending : Option Instr
  deriving DecidableEq, Repr

/-- A fault would stop the machine. The spec describes none: an error is a value recorded in `STATUS` and the core goes on
(R201, R206), so no step faults and the type has no constructor. Safe: nothing is shut out. -/
inductive Fault where
  deriving DecidableEq, Repr

/-- Why an instruction has no meaning. -/
inductive Refusal where
  /-- Raised by an arm of `exec` whose instruction is not modelled yet; no arm is left so. Safe: the machine stops. -/
  | notModelled (mnemonic : String)
  deriving DecidableEq, Repr

/-- The machine right after reset (R230, R233): every register and hidden element at the value the spec gives, phase IDLE,
no command pending, `rst_n` released; at the port nothing is waiting and nothing has been answered. -/
def State.reset : State where
  inputs := []
  transfers := []
  draws := 0
  rstN := true
  ie := false
  eie := false
  done := false
  err := false
  authOk := false
  cwrap := false
  errcode := .noError
  phase := .idle
  counter := 0#32
  aadlen := 0#64
  ctlen := 0#64
  key := Vector.replicate 8 0#32
  nonce := Vector.replicate 3 0#32
  tag := Vector.replicate 4 0#32
  rtag := Vector.replicate 4 0#32
  din := Vector.replicate 16 0#32
  dout := Vector.replicate 16 0#32
  kmask := 0#8
  nmask := 0#3
  rmask := 0#4
  polyR := 0#128
  polyS := 0#128
  acc := 0
  pending := none

end Sys2Proof.Machine
end

