-- ==== Sys2Proof/Machine/Flags.lean ====
section
/-! DEFINITION. The computed flags: the fields of STATUS (spec/10_state.md R24 to R33), the word CTRL reads as (R22), and
the interrupt output (spec/60_exceptions.md R210, R211). -/

namespace Sys2Proof.Machine

/-- The value of `STATUS.PHASE` (R31). -/
def Phase.code : Phase → BitVec 4
  | .idle => 0x0#4
  | .mac => 0x1#4
  | .macTail => 0x2#4
  | .sealAad => 0x4#4
  | .sealData => 0x5#4
  | .sealTail => 0x6#4
  | .openAad => 0x8#4
  | .openData => 0x9#4
  | .openTail => 0xA#4
  | .openDecrypt => 0xB#4

/-- The AEAD phases are 0x4, 0x5, 0x6, 0x8, 0x9, 0xA and 0xB (R31). -/
def Phase.isAead : Phase → Bool
  | .idle => false
  | .mac => false
  | .macTail => false
  | .sealAad => true
  | .sealData => true
  | .sealTail => true
  | .openAad => true
  | .openData => true
  | .openTail => true
  | .openDecrypt => true

/-- The value of `STATUS.ERRCODE` (R200). -/
def ErrCode.code : ErrCode → BitVec 4
  | .noError => 0#4
  | .busy => 1#4
  | .illegal => 2#4
  | .badlen => 3#4
  | .sequence => 4#4
  | .key => 5#4
  | .nonce => 6#4
  | .auth => 7#4
  | .locked => 8#4
  | .bus => 9#4

/-- `STATUS.BUSY` (R25): 1 exactly when a command is in flight (R44). -/
def State.busy (s : State) : Bool := s.pending.isSome

/-- `STATUS.KEYV` (R32): all eight bits of `KMASK` are 1. -/
def State.keyv (s : State) : Bool := s.kmask == 0xFF#8

/-- `STATUS.NONCEV` (R32): all three bits of `NMASK` are 1. -/
def State.noncev (s : State) : Bool := s.nmask == 0x7#3

/-- `STATUS.RTAGV` (R33): all four bits of `RMASK` are 1. -/
def State.rtagv (s : State) : Bool := s.rmask == 0xF#4

/-- What `STATUS` reads as (R24), the most significant field first; reserved bits read 0 (R39). -/
def State.statusWord (s : State) : Word :=
  0#13 ++ BitVec.ofBool s.rtagv ++ BitVec.ofBool s.noncev ++ BitVec.ofBool s.keyv ++ s.phase.code ++ s.errcode.code ++
    0#3 ++ BitVec.ofBool s.cwrap ++ BitVec.ofBool s.authOk ++ BitVec.ofBool s.err ++ BitVec.ofBool s.done ++
    BitVec.ofBool s.busy

/-- What `CTRL` reads as (R22): IE and EIE; SRST and the reserved bits read 0. -/
def State.ctrlWord (s : State) : Word := 0#30 ++ BitVec.ofBool s.eie ++ BitVec.ofBool s.ie

/-- The interrupt output (R210). -/
def State.irq (s : State) : Bool := (s.ie && s.done) || (s.eie && s.err)

/-- The level `irq` puts on line `n` of the host's interrupt controller (R211): `IRQ_LINE` is the one it drives. -/
def State.drivesLine (s : State) (n : Nat) : Bool := n == Config.irqLine && s.irq

end Sys2Proof.Machine
end

