-- ==== Sys2Proof/Machine/Ops.lean ====
section
/-! DEFINITION. The named operations every command and access is built from: raising an error and clearing one, which is all
the core has by way of exceptions (spec/60_exceptions.md R201, R206, R207); reset; the port's log; the write masks; and the
two halves of a command's life (spec/40_command_issue.md R100 to R104). -/

namespace Sys2Proof.Machine

/-- `raise Error(code)` (R201): sets ERR and ERRCODE "and nothing else". It is the core's whole exception entry (R206); a
second error overwrites the code (R208). -/
def raiseError (code : ErrCode) (s : State) : State := { s with err := true, errcode := code }

/-- The return from an error (R207, R24): writing 1 to STATUS bit 2 clears ERR and ERRCODE. -/
def clearError (s : State) : State := { s with err := false, errcode := .noError }

/-- Every register and hidden element takes its reset value (R230, R231, R232). What lies outside the core stays: the level
of `rst_n`, the accesses still to come, the port's log and the model's draw counter. -/
def resetCore (s : State) : State :=
  { State.reset with inputs := s.inputs, transfers := s.transfers, draws := s.draws, rstN := s.rstN }

/-- The port's answer to a performed access (R60). -/
def answer (t : Transfer) (s : State) : State := { s with transfers := s.transfers ++ [t] }

/-- Bit `j` of a write mask set (R42). -/
def maskSet {n : Nat} (mask : BitVec n) (j : Nat) : BitVec n := mask ||| (BitVec.ofNat n (2 ^ j))

/-- `ADMITTED(opc)`: is the command accepted in this phase (R108)? -/
def admitted : Instr → Phase → Bool
  | .chachaBlock _, p => p == .idle || p == .mac || p == .macTail
  | .chachaXor _, p => p == .idle || p == .mac || p == .macTail
  | .polyInit _, p => p == .idle
  | .polyUpdate _, p => p == .mac
  | .polyFinal _, p => p == .mac || p == .macTail
  | .aeadSealInit _, p => p == .idle
  | .aeadOpenInit _, p => p == .idle
  | .aeadAad _, p => p == .sealAad || p == .openAad
  | .aeadEnc _, p => p == .sealAad || p == .sealData
  | .aeadTag _, p => p == .sealAad || p == .sealData || p == .sealTail
  | .aeadAbsorb _, p => p == .openAad || p == .openData
  | .aeadVerify _, p => p == .openAad || p == .openData || p == .openTail
  | .aeadDecrypt _, p => p == .openDecrypt
  | .abort _, _ => true
  | .zeroize _, _ => true

/-- `NEEDS_KEY_NONCE` (R109). -/
def needsKeyNonce : Instr → Bool
  | .chachaBlock _ => true
  | .chachaXor _ => true
  | .polyInit _ => false
  | .polyUpdate _ => false
  | .polyFinal _ => false
  | .aeadSealInit _ => true
  | .aeadOpenInit _ => true
  | .aeadAad _ => false
  | .aeadEnc _ => false
  | .aeadTag _ => false
  | .aeadAbsorb _ => false
  | .aeadVerify _ => false
  | .aeadDecrypt _ => false
  | .abort _ => false
  | .zeroize _ => false

/-- Acceptance (R103): `PENDING <- (opc, LEN)`, with it BUSY, "and changes nothing else". -/
def accept (i : Instr) (s : State) : State := { s with pending := some i }

/-- Checks 3 to 6 of R102 on a decoded command, in that order, and acceptance when none applies. Checks 1 and 2 come
before a word is a command at all: they are `present`'s. -/
def issue (i : Instr) (s : State) : State :=
  if !i.wf then raiseError .badlen s
  else if !admitted i s.phase then raiseError .sequence s
  else if needsKeyNonce i && !s.keyv then raiseError .key s
  else if needsKeyNonce i && !s.noncev then raiseError .nonce s
  else accept i s

/-- The end of a completion (R104): PENDING and BUSY fall, and DONE is set "unless the command's rule raised an error". -/
def finish : State × Option ErrCode → State
  | (s, none) => { s with pending := none, done := true }
  | (s, some code) => raiseError code { s with pending := none }

/-- One step of the life of command `i` (R100). With no command in flight it is presented: checked, and accepted or
rejected. In flight, it completes: its own rule's effect (the new state and the error it raises, if any), then `finish`.
While another command is in flight it is turned away with BUSY (R102 check 1). -/
def runCommand (i : Instr) (effect : State → State × Option ErrCode) (s : State) :
    Host.Outcome State Fault Refusal :=
  match s.pending with
  | none => .next (issue i s)
  | some j => if j = i then .next (finish (effect s)) else .next (raiseError .busy s)

/-- The effect of a rule that raises no error (R104: every command but AEAD_VERIFY). -/
def noError (s : State) : State × Option ErrCode := (s, none)

end Sys2Proof.Machine
end

