-- ==== Sys2Proof/Machine/Operands.lean ====
section
/-! DEFINITION. The operand forms of the commands: the input buffer's prefix, and the output buffer and
the tag registers as destinations (spec/10_state.md R38, R40). -/

namespace Sys2Proof.Machine

/-- `DIN.bytes[0:LEN]` (R38). -/
def State.dinBytes (s : State) (len : Nat) : List Byte := slice (groupBytes s.din) 0 len

/-- What DOUT holds after `DOUT.bytes[0:LEN] <- B`, with `LEN = len(B)`, and `DOUT.bytes[LEN:64] <- zero bytes` (R38). -/
def doutOf (B : List Byte) : Vector Word 16 := groupOfBytes 16 (B ++ zeros (64 - B.length))

/-- What TAG holds after `TAG.bytes <- B` (R40). -/
def tagOf (B : List Byte) : Vector Word 4 := groupOfBytes 4 B

end Sys2Proof.Machine
end

