-- ==== Sys2Proof/Machine/ChaCha.lean ====
section
/-! DEFINITION. The StreamCipherCore: the ChaCha20 block function and the CHACHA commands (spec/41_chacha20.md). -/

namespace Sys2Proof.Machine

/-- The 16 words of the working state (R45, R121): they live only while a block is computed. -/
abbrev ChaChaState := Vector Word 16

/-- The four constant words (R122), "expand 32-byte k". -/
def sigma : Vector Word 4 := #v[0x61707865#32, 0x3320646E#32, 0x79622D32#32, 0x6B206574#32]

/-- The initial state (R121): constants, key words, counter, nonce words. -/
def initialState (key : Vector Word 8) (c : Word) (nonce : Vector Word 3) : ChaChaState :=
  #v[sigma[0], sigma[1], sigma[2], sigma[3],
    key[0], key[1], key[2], key[3], key[4], key[5], key[6], key[7],
    c, nonce[0], nonce[1], nonce[2]]

/-- One line of the quarter round (R123): `x[a] <- x[a] + x[b]; x[d] <- rotl(x[d] ^ x[a], n)`. -/
def quarterLine (a b d : Fin 16) (n : Nat) (x : ChaChaState) : ChaChaState :=
  let y := x.set a (x[a] + x[b])
  y.set d (rotl (y[d] ^^^ y[a]) n)

/-- `QR(a, b, c, d)` (R123): four lines, rotating by 16, 12, 8 and 7. -/
def quarterRound (a b c d : Fin 16) (x : ChaChaState) : ChaChaState :=
  quarterLine c d b 7 (quarterLine a b d 8 (quarterLine c d b 12 (quarterLine a b d 16 x)))

/-- The column round (R124): QR(0,4,8,12); QR(1,5,9,13); QR(2,6,10,14); QR(3,7,11,15). -/
def columnRound (x : ChaChaState) : ChaChaState :=
  quarterRound 3 7 11 15 (quarterRound 2 6 10 14 (quarterRound 1 5 9 13 (quarterRound 0 4 8 12 x)))

/-- The diagonal round (R124): QR(0,5,10,15); QR(1,6,11,12); QR(2,7,8,13); QR(3,4,9,14). -/
def diagonalRound (x : ChaChaState) : ChaChaState :=
  quarterRound 3 4 9 14 (quarterRound 2 7 8 13 (quarterRound 1 6 11 12 (quarterRound 0 5 10 15 x)))

/-- `n` double rounds: a column round, then a diagonal round (R124). -/
def doubleRounds : Nat → ChaChaState → ChaChaState
  | 0, x => x
  | n + 1, x => doubleRounds n (diagonalRound (columnRound x))

/-- The block function's 16 output words (R125): ten double rounds, then the initial state added word by word. -/
def blockWords (s : ChaChaState) : ChaChaState := Vector.zipWith (· + ·) (doubleRounds 10 s) s

/-- `block(k, n, c)` (R125): 64 bytes, the output words little-endian; `k` has 32 bytes and `n` has 12 (R121). -/
def block (k n : List Byte) (c : Word) : List Byte :=
  groupBytes (blockWords (initialState (groupOfBytes 8 k) c (groupOfBytes 3 n)))

/-- The chunks of `encrypt` in order: chunk `i` is exclusive-ored with the matching prefix of the block at counter
`c + i` (R126); the counter wraps (R12). -/
def encryptChunks (k n : List Byte) : Word → List (List Byte) → List Byte
  | _, [] => []
  | c, C :: rest => xorBytes C (slice (block k n c) 0 C.length) ++ encryptChunks k n (c + 1#32) rest

/-- `encrypt(k, n, c, data)` (R126), the whole-message function of D0 §4.1. -/
def encrypt (k n : List Byte) (c : Word) (data : List Byte) : List Byte := encryptChunks k n c (chunks 64 data)

/-- `block(KEY.bytes, NONCE.bytes, c)` for the loaded key and nonce. -/
def State.keystream (s : State) (c : Word) : List Byte := block (groupBytes s.key) (groupBytes s.nonce) c

/-- `CounterStep` (R131): CWRAP records the wrap, COUNTER steps modulo 2^32. -/
def counterStep (s : State) : State :=
  { s with cwrap := s.cwrap || s.counter == 0xFFFFFFFF#32, counter := s.counter + 1#32 }

/-- What CHACHA_XOR, AEAD_ENC and AEAD_DECRYPT produce from `DIN.bytes[0:LEN]` (R133, R172, R178). -/
def State.streamOut (s : State) (len : Nat) : List Byte :=
  if len = 0 then [] else xorBytes (s.dinBytes len) (slice (s.keystream s.counter) 0 len)

/-- COUNTER after one of those commands: with LEN = 0 it consumes no block and does not step the counter (R131). -/
def State.counterAfter (s : State) (len : Nat) : Word := if len = 0 then s.counter else (counterStep s).counter

/-- CWRAP after one of those commands (R131). -/
def State.cwrapAfter (s : State) (len : Nat) : Bool := if len = 0 then s.cwrap else (counterStep s).cwrap

/-- CHACHA_BLOCK (R132). -/
def chachaBlockEffect (s : State) : State × Option ErrCode :=
  noError { s with dout := doutOf (s.keystream s.counter) }

/-- CHACHA_XOR (R133). -/
def chachaXorEffect (len : BitVec 7) (s : State) : State × Option ErrCode :=
  noError { s with
    dout := doutOf (s.streamOut len.toNat)
    counter := s.counterAfter len.toNat
    cwrap := s.cwrapAfter len.toNat }

/-- CHACHA_BLOCK (R132): compute one raw keystream block. -/
def execChachaBlock (len : BitVec 7) (s : State) : Host.Outcome State Fault Refusal :=
  runCommand (.chachaBlock len) chachaBlockEffect s

/-- CHACHA_XOR (R133): exclusive-or one chunk with the keystream block at COUNTER. -/
def execChachaXor (len : BitVec 7) (s : State) : Host.Outcome State Fault Refusal :=
  runCommand (.chachaXor len) (chachaXorEffect len) s

end Sys2Proof.Machine
end

