-- ==== Sys2Proof/Machine/Poly.lean ====
section
/-! DEFINITION. The OneTimeAuthenticator: Poly1305 and the POLY commands (spec/42_poly1305.md). -/

namespace Sys2Proof.Machine

/-- `p = 2^130 - 5` (R140). -/
def polyP : Nat := 2 ^ 130 - 5

/-- `clamp(v)` (R141). -/
def clamp (v : BitVec 128) : BitVec 128 := v &&& 0x0FFFFFFC0FFFFFFC0FFFFFFC0FFFFFFF#128

/-- The chunk step (R143): `ACC <- ((ACC + LE(c || 0x01)) * R) mod p`, fully reduced (R145). -/
def chunkStep (r : BitVec 128) (acc : Nat) (c : List Byte) : Nat := ((acc + le (c ++ [1#8])) * r.toNat) % polyP

/-- Chunk steps on `cs` in order. -/
def absorb (r : BitVec 128) (acc : Nat) (cs : List (List Byte)) : Nat := cs.foldl (chunkStep r) acc

/-- `LEbytes_16((ACC + S) mod 2^128)` (R144). -/
def tagBytes (acc : Nat) (sv : BitVec 128) : List Byte := leBytes 16 ((acc + sv.toNat) % 2 ^ 128)

/-- The `R` a one-time key gives: its first half, little-endian, clamped (R142). -/
def otkR (otk : List Byte) : BitVec 128 := clamp (BitVec.ofNat 128 (le (slice otk 0 16)))

/-- The `S` a one-time key gives: its second half, little-endian (R142). -/
def otkS (otk : List Byte) : BitVec 128 := BitVec.ofNat 128 (le (slice otk 16 32))

/-- `poly1305(otk, message)` (R144), the whole-message function of D0 §4.2. -/
def poly1305 (otk message : List Byte) : List Byte :=
  tagBytes (absorb (otkR otk) 0 (chunks 16 message)) (otkS otk)

/-- POLY_INIT (R150): the one-time key is `DIN.bytes[0:32]`. -/
def polyInitEffect (s : State) : State × Option ErrCode :=
  noError { s with
    polyR := otkR (s.dinBytes 32)
    polyS := otkS (s.dinBytes 32)
    acc := 0
    tag := tagOf (zeros 16)
    phase := .mac }

/-- POLY_UPDATE (R151): full 16-byte chunks, then one short chunk, after which the phase is MAC_TAIL. -/
def polyUpdateEffect (len : BitVec 7) (s : State) : State × Option ErrCode :=
  noError { s with
    acc := absorb s.polyR s.acc (chunks 16 (s.dinBytes len.toNat))
    phase := if len.toNat % 16 = 0 then s.phase else .macTail }

/-- POLY_FINAL (R152): the tag, and the one-time key discarded (R43). -/
def polyFinalEffect (s : State) : State × Option ErrCode :=
  noError { s with
    tag := tagOf (tagBytes s.acc s.polyS)
    polyR := 0#128
    polyS := 0#128
    acc := 0
    phase := .idle }

/-- POLY_INIT (R150): load a one-time key and start a raw Poly1305 session. -/
def execPolyInit (len : BitVec 7) (s : State) : Host.Outcome State Fault Refusal :=
  runCommand (.polyInit len) polyInitEffect s

/-- POLY_UPDATE (R151): absorb up to 64 message bytes. -/
def execPolyUpdate (len : BitVec 7) (s : State) : Host.Outcome State Fault Refusal :=
  runCommand (.polyUpdate len) (polyUpdateEffect len) s

/-- POLY_FINAL (R152): output the tag and end the session. -/
def execPolyFinal (len : BitVec 7) (s : State) : Host.Outcome State Fault Refusal :=
  runCommand (.polyFinal len) polyFinalEffect s

end Sys2Proof.Machine
end

