-- ==== Sys2Proof/Machine/Aead.lean ====
section
/-! DEFINITION. The AEADConstruction: D0's `seal` and `open` and the AEAD commands (spec/43_aead.md). -/

namespace Sys2Proof.Machine

/-- `pad16(x)` (R161): zero bytes bringing `x` to a multiple of 16. -/
def pad16 (x : List Byte) : List Byte := zeros ((16 - x.length % 16) % 16)

/-- `derive_one_time_key(k, n) = block(k, n, 0)[0:32]` (R162). -/
def deriveOneTimeKey (k n : List Byte) : List Byte := slice (block k n 0#32) 0 32

/-- `mac_input` of R163. -/
def macInput (aad ciphertext : List Byte) : List Byte :=
  aad ++ pad16 aad ++ ciphertext ++ pad16 ciphertext ++ leBytes 8 aad.length ++ leBytes 8 ciphertext.length

/-- The ciphertext and the tag of `seal(k, n, plaintext, aad)` (R163), whose result is their concatenation. -/
def aeadSeal (k n plaintext aad : List Byte) : List Byte × List Byte :=
  let ciphertext := encrypt k n 1#32 plaintext
  (ciphertext, poly1305 (deriveOneTimeKey k n) (macInput aad ciphertext))

/-- `open(k, n, sealed, aad)` (R164): `none` is `AuthenticationFailure`. -/
def aeadOpen (k n sealedText aad : List Byte) : Option (List Byte) :=
  if sealedText.length < 16 then none
  else
    let ciphertext := sealedText.take (sealedText.length - 16)
    let receivedTag := sealedText.drop (sealedText.length - 16)
    if poly1305 (deriveOneTimeKey k n) (macInput aad ciphertext) = receivedTag then some (encrypt k n 1#32 ciphertext)
    else none

/-- A chunk of at most 16 bytes filled with zero bytes to 16 (R165). -/
def padChunk (c : List Byte) : List Byte := c ++ zeros (16 - c.length)

/-- `AbsorbPadded(B)` (R165): ACC after the chunk steps on the 16-byte chunks of `B || pad16(B)`. -/
def absorbPadded (r : BitVec 128) (acc : Nat) (B : List Byte) : Nat := absorb r acc ((chunks 16 B).map padChunk)

/-- The 16-byte chunk `LEbytes_8(AADLEN) || LEbytes_8(CTLEN)` (R166). -/
def State.lengthBytes (s : State) : List Byte := leBytes 8 s.aadlen.toNat ++ leBytes 8 s.ctlen.toNat

/-- `LengthBlock` (R166): ACC after the chunk step on the two lengths. -/
def State.lengthBlock (s : State) : Nat := chunkStep s.polyR s.acc s.lengthBytes

/-- The tag of an AEAD session: `LEbytes_16((ACC + S) mod 2^128)` after the length block (R174, R176). -/
def State.aeadTag (s : State) : List Byte := tagBytes s.lengthBlock s.polyS

/-- `AeadInit(p)` (R167, R168), the one-time key being `block(KEY.bytes, NONCE.bytes, 0)[0:32]`. -/
def aeadInit (p : Phase) (s : State) : State :=
  { s with
    polyR := otkR (slice (s.keystream 0#32) 0 32)
    polyS := otkS (slice (s.keystream 0#32) 0 32)
    acc := 0
    counter := 1#32
    aadlen := 0#64
    ctlen := 0#64
    authOk := false
    tag := tagOf (zeros 16)
    dout := doutOf []
    phase := p }

/-- The phase a section's data leave: `full` after exactly 64 bytes, `tail` after fewer (R172, R175). -/
def dataPhase (full tail : Phase) (len : Nat) : Phase := if len = 64 then full else tail

/-- The comparison of R176 and R177: the exclusive-ors of all byte pairs, or-ed together. -/
def tagDiff (A B : List Byte) : Byte := (xorBytes A B).foldl (· ||| ·) 0#8

/-- AEAD_SEAL_INIT (R167). -/
def aeadSealInitEffect (s : State) : State × Option ErrCode := noError (aeadInit .sealAad s)

/-- AEAD_OPEN_INIT (R168): RTAG is neither read nor cleared. -/
def aeadOpenInitEffect (s : State) : State × Option ErrCode := noError (aeadInit .openAad s)

/-- AEAD_AAD (R170): a part whose length is no multiple of 16 closes the AAD. -/
def aeadAadEffect (len : BitVec 7) (s : State) : State × Option ErrCode :=
  noError { s with
    acc := absorbPadded s.polyR s.acc (s.dinBytes len.toNat)
    aadlen := s.aadlen + BitVec.ofNat 64 len.toNat
    phase := if len.toNat % 16 = 0 then s.phase else if s.phase = .sealAad then .sealData else .openData }

/-- AEAD_ENC (R172): the ciphertext goes to DOUT and into the authenticator. -/
def aeadEncEffect (len : BitVec 7) (s : State) : State × Option ErrCode :=
  noError { s with
    dout := doutOf (s.streamOut len.toNat)
    counter := s.counterAfter len.toNat
    cwrap := s.cwrapAfter len.toNat
    acc := absorbPadded s.polyR s.acc (s.streamOut len.toNat)
    ctlen := s.ctlen + BitVec.ofNat 64 len.toNat
    phase := dataPhase .sealData .sealTail len.toNat }

/-- AEAD_TAG (R174): the tag, and the one-time key discarded (R43). -/
def aeadTagEffect (s : State) : State × Option ErrCode :=
  noError { s with
    tag := tagOf s.aeadTag
    polyR := 0#128
    polyS := 0#128
    acc := 0
    phase := .idle }

/-- AEAD_ABSORB (R175): no output, no keystream. -/
def aeadAbsorbEffect (len : BitVec 7) (s : State) : State × Option ErrCode :=
  noError { s with
    acc := absorbPadded s.polyR s.acc (s.dinBytes len.toNat)
    ctlen := s.ctlen + BitVec.ofNat 64 len.toNat
    phase := dataPhase .openData .openTail len.toNat }

/-- `match` of R176: all 16 byte pairs agree and RTAGV = 1. -/
def State.tagMatches (s : State) : Bool := tagDiff s.aeadTag (groupBytes s.rtag) == 0#8 && s.rtagv

/-- AEAD_VERIFY (R176): the one-time key and RTAG are discarded either way; a mismatch raises AUTH. -/
def aeadVerifyEffect (s : State) : State × Option ErrCode :=
  let s' := { s with
    polyR := 0#128
    polyS := 0#128
    acc := 0
    rtag := Vector.replicate 4 0#32
    rmask := 0#4 }
  if s.tagMatches then noError { s' with authOk := true, counter := 1#32, phase := .openDecrypt }
  else ({ s' with authOk := false, phase := .idle }, some .auth)

/-- AEAD_DECRYPT (R178): fewer than 64 bytes end the session. -/
def aeadDecryptEffect (len : BitVec 7) (s : State) : State × Option ErrCode :=
  noError { s with
    dout := doutOf (s.streamOut len.toNat)
    counter := s.counterAfter len.toNat
    cwrap := s.cwrapAfter len.toNat
    phase := if len.toNat < 64 then .idle else s.phase }

/-- AEAD_SEAL_INIT (R167): start a seal. -/
def execAeadSealInit (len : BitVec 7) (s : State) : Host.Outcome State Fault Refusal :=
  runCommand (.aeadSealInit len) aeadSealInitEffect s

/-- AEAD_OPEN_INIT (R168): start an open. -/
def execAeadOpenInit (len : BitVec 7) (s : State) : Host.Outcome State Fault Refusal :=
  runCommand (.aeadOpenInit len) aeadOpenInitEffect s

/-- AEAD_AAD (R170): absorb up to 64 bytes of associated data. -/
def execAeadAad (len : BitVec 7) (s : State) : Host.Outcome State Fault Refusal :=
  runCommand (.aeadAad len) (aeadAadEffect len) s

/-- AEAD_ENC (R172): encrypt up to 64 plaintext bytes and absorb the ciphertext. -/
def execAeadEnc (len : BitVec 7) (s : State) : Host.Outcome State Fault Refusal :=
  runCommand (.aeadEnc len) (aeadEncEffect len) s

/-- AEAD_TAG (R174): absorb the lengths and output the seal's tag. -/
def execAeadTag (len : BitVec 7) (s : State) : Host.Outcome State Fault Refusal :=
  runCommand (.aeadTag len) aeadTagEffect s

/-- AEAD_ABSORB (R175): absorb up to 64 ciphertext bytes of an open. -/
def execAeadAbsorb (len : BitVec 7) (s : State) : Host.Outcome State Fault Refusal :=
  runCommand (.aeadAbsorb len) (aeadAbsorbEffect len) s

/-- AEAD_VERIFY (R176): absorb the lengths, compare the tag, and on a match enable decryption. -/
def execAeadVerify (len : BitVec 7) (s : State) : Host.Outcome State Fault Refusal :=
  runCommand (.aeadVerify len) aeadVerifyEffect s

/-- AEAD_DECRYPT (R178): decrypt up to 64 bytes after a matching verify. -/
def execAeadDecrypt (len : BitVec 7) (s : State) : Host.Outcome State Fault Refusal :=
  runCommand (.aeadDecrypt len) (aeadDecryptEffect len) s

end Sys2Proof.Machine
end

