-- ==== Sys2Proof/Machine/Session.lean ====
section
/-! DEFINITION. The session control commands ABORT and ZEROIZE (spec/44_session_control.md). -/

namespace Sys2Proof.Machine

/-- ABORT (R190): the session ends without output, its one-time key discarded (R43). -/
def abortEffect (s : State) : State × Option ErrCode :=
  noError { s with
    polyR := 0#128
    polyS := 0#128
    acc := 0
    authOk := false
    phase := .idle }

/-- ZEROIZE (R191): every secret and every data register is cleared; CTRL, ERR, ERRCODE and CWRAP are kept. -/
def zeroizeEffect (s : State) : State × Option ErrCode :=
  noError { s with
    key := Vector.replicate 8 0#32
    kmask := 0#8
    nonce := Vector.replicate 3 0#32
    nmask := 0#3
    counter := 0#32
    aadlen := 0#64
    ctlen := 0#64
    tag := Vector.replicate 4 0#32
    rtag := Vector.replicate 4 0#32
    rmask := 0#4
    din := Vector.replicate 16 0#32
    dout := Vector.replicate 16 0#32
    polyR := 0#128
    polyS := 0#128
    acc := 0
    authOk := false
    phase := .idle }

/-- ABORT (R190): end any session without output. -/
def execAbort (len : BitVec 7) (s : State) : Host.Outcome State Fault Refusal :=
  runCommand (.abort len) abortEffect s

/-- ZEROIZE (R191): clear every secret and every data register. -/
def execZeroize (len : BitVec 7) (s : State) : Host.Outcome State Fault Refusal :=
  runCommand (.zeroize len) zeroizeEffect s

end Sys2Proof.Machine
end

