-- ==== Sys2Proof/Machine/Dispatch.lean ====
section
/-! DEFINITION. One arm per command: the meaning of each (spec/opcode_table.json). -/

namespace Sys2Proof.Machine

def exec (i : Instr) (s : State) : Host.Outcome State Fault Refusal :=
  match i with
  | .chachaBlock len => Sys2Proof.Machine.execChachaBlock len s
  | .chachaXor len => Sys2Proof.Machine.execChachaXor len s
  | .polyInit len => Sys2Proof.Machine.execPolyInit len s
  | .polyUpdate len => Sys2Proof.Machine.execPolyUpdate len s
  | .polyFinal len => Sys2Proof.Machine.execPolyFinal len s
  | .aeadSealInit len => Sys2Proof.Machine.execAeadSealInit len s
  | .aeadOpenInit len => Sys2Proof.Machine.execAeadOpenInit len s
  | .aeadAad len => Sys2Proof.Machine.execAeadAad len s
  | .aeadEnc len => Sys2Proof.Machine.execAeadEnc len s
  | .aeadTag len => Sys2Proof.Machine.execAeadTag len s
  | .aeadAbsorb len => Sys2Proof.Machine.execAeadAbsorb len s
  | .aeadVerify len => Sys2Proof.Machine.execAeadVerify len s
  | .aeadDecrypt len => Sys2Proof.Machine.execAeadDecrypt len s
  | .abort len => Sys2Proof.Machine.execAbort len s
  | .zeroize len => Sys2Proof.Machine.execZeroize len s

end Sys2Proof.Machine
end

