-- ==== Sys2Proof/Machine/Window.lean ====
section
/-! DEFINITION. The register window: which register stands at which offset (spec/10_state.md section 2), what a host read
returns and a host write does (spec/20_memory.md R60 to R63), while busy and locked too (spec/40_command_issue.md R106, R107;
spec/60_exceptions.md R203). -/

namespace Sys2Proof.Machine

/-- The registers of the window (R20, section 2 of spec/10_state.md); every other offset is reserved (R39). -/
inductive Reg where
  | id
  | ctrl
  | cmd
  | status
  | counter
  | aadlenLo
  | aadlenHi
  | ctlenLo
  | ctlenHi
  | key (j : Fin 8)
  | nonce (j : Fin 3)
  | tag (j : Fin 4)
  | rtag (j : Fin 4)
  | din (j : Fin 16)
  | dout (j : Fin 16)
  | reserved
  deriving DecidableEq, Repr

/-- The register at an aligned offset; only the word the offset lies in is looked at (the register map). -/
def regAt (off : BitVec 9) : Reg :=
  let w := off.toNat / 4
  if w = 0 then .id
  else if w = 1 then .ctrl
  else if w = 2 then .cmd
  else if w = 3 then .status
  else if w = 4 then .counter
  else if w = 6 then .aadlenLo
  else if w = 7 then .aadlenHi
  else if w = 8 then .ctlenLo
  else if w = 9 then .ctlenHi
  else if h : 16 ≤ w ∧ w < 24 then .key ⟨w - 16, by omega⟩
  else if h : 24 ≤ w ∧ w < 27 then .nonce ⟨w - 24, by omega⟩
  else if h : 28 ≤ w ∧ w < 32 then .tag ⟨w - 28, by omega⟩
  else if h : 32 ≤ w ∧ w < 36 then .rtag ⟨w - 32, by omega⟩
  else if h : 64 ≤ w ∧ w < 80 then .din ⟨w - 64, by omega⟩
  else if h : 80 ≤ w ∧ w < 96 then .dout ⟨w - 80, by omega⟩
  else .reserved

/-- The offset of a register (the register map); `reserved` stands for the first reserved offset. -/
def Reg.offset : Reg → BitVec 9
  | .id => 0x000#9
  | .ctrl => 0x004#9
  | .cmd => 0x008#9
  | .status => 0x00C#9
  | .counter => 0x010#9
  | .reserved => 0x014#9
  | .aadlenLo => 0x018#9
  | .aadlenHi => 0x01C#9
  | .ctlenLo => 0x020#9
  | .ctlenHi => 0x024#9
  | .key j => BitVec.ofNat 9 (0x040 + 4 * j.val)
  | .nonce j => BitVec.ofNat 9 (0x060 + 4 * j.val)
  | .tag j => BitVec.ofNat 9 (0x070 + 4 * j.val)
  | .rtag j => BitVec.ofNat 9 (0x080 + 4 * j.val)
  | .din j => BitVec.ofNat 9 (0x100 + 4 * j.val)
  | .dout j => BitVec.ofNat 9 (0x140 + 4 * j.val)

/-- The offset a bus address has in the window, if it lies in it: address bits [8:0] relative to CORE_BASE (R60, R66). -/
def windowOffset (addr : Nat) : Option (BitVec 9) :=
  if Config.coreBase ≤ addr ∧ addr < Config.coreBase + 512 then some (BitVec.ofNat 9 (addr - Config.coreBase)) else none

/-- The hard-wired value of `ID` (R3, R21). -/
def idValue : Word := 0x30324343#32

/-- The contents a read returns (R61): `CMD`, `KEYj` and reserved offsets read 0 (R23, R36, R39). -/
def regValue (r : Reg) (s : State) : Word :=
  match r with
  | .id => idValue
  | .ctrl => s.ctrlWord
  | .cmd => 0#32
  | .status => s.statusWord
  | .counter => s.counter
  | .aadlenLo => s.aadlen.extractLsb' 0 32
  | .aadlenHi => s.aadlen.extractLsb' 32 32
  | .ctlenLo => s.ctlen.extractLsb' 0 32
  | .ctlenHi => s.ctlen.extractLsb' 32 32
  | .key _ => 0#32
  | .nonce j => s.nonce[j]
  | .tag j => s.tag[j]
  | .rtag j => s.rtag[j]
  | .din j => s.din[j]
  | .dout j => s.dout[j]
  | .reserved => 0#32

/-- The registers whose value is unspecified while busy (R107). -/
def Reg.isResult : Reg → Bool
  | .id => false
  | .ctrl => false
  | .cmd => false
  | .status => false
  | .counter => true
  | .aadlenLo => true
  | .aadlenHi => true
  | .ctlenLo => true
  | .ctlenHi => true
  | .key _ => false
  | .nonce _ => false
  | .tag _ => true
  | .rtag _ => false
  | .din _ => false
  | .dout _ => true
  | .reserved => false

/-- A performed read: the value, and the state with the draw counter advanced where the value is a free one (R61, R107). -/
def readReg (r : Reg) (s : State) : Word × State :=
  if s.busy && r.isResult then (Config.busyReadValue s.draws, { s with draws := s.draws + 1 }) else (regValue r s, s)

/-- A write that a command in flight refuses with BUSY (R106). -/
def unlessBusy (act : State → State) (s : State) : State := if s.busy then raiseError .busy s else act s

/-- A write that an AEAD phase refuses with LOCKED, after BUSY (R203, R204). -/
def unlessLocked (act : State → State) (s : State) : State :=
  unlessBusy (fun s => if s.phase.isAead then raiseError .locked s else act s) s

/-- A write to `CTRL` (R22, R231): bit 31 resets, busy or not, and discards the other bits; else IE and EIE. -/
def writeCtrl (v : Word) (s : State) : State :=
  if v.getLsbD 31 then resetCore s
  else unlessBusy (fun s => { s with ie := v.getLsbD 0, eie := v.getLsbD 1 }) s

/-- A write to `STATUS` (R24): 1 clears DONE (bit 1), ERR with ERRCODE (bit 2), CWRAP (bit 4), busy or not. -/
def writeStatus (v : Word) (s : State) : State :=
  let s1 := { s with done := s.done && !v.getLsbD 1, cwrap := s.cwrap && !v.getLsbD 4 }
  if v.getLsbD 2 then clearError s1 else s1

/-- A write to any register but `CMD` (R62). Read-only and reserved offsets ignore it (R21, R39). -/
def writeData (r : Reg) (v : Word) (s : State) : State :=
  match r with
  | .id => s
  | .ctrl => writeCtrl v s
  | .cmd => s
  | .status => writeStatus v s
  | .counter => unlessLocked (fun s => { s with counter := v }) s
  | .aadlenLo => s
  | .aadlenHi => s
  | .ctlenLo => s
  | .ctlenHi => s
  | .key j => unlessLocked (fun s => { s with key := s.key.set j v, kmask := maskSet s.kmask j.val }) s
  | .nonce j => unlessLocked (fun s => { s with nonce := s.nonce.set j v, nmask := maskSet s.nmask j.val }) s
  | .tag _ => s
  | .rtag j => unlessBusy (fun s => { s with rtag := s.rtag.set j v, rmask := maskSet s.rmask j.val }) s
  | .din j => unlessBusy (fun s => { s with din := s.din.set j v }) s
  | .dout _ => s
  | .reserved => s

/-- Presentation of a command word (R101, R102): check 1 (BUSY) and check 2 (ILLEGAL) here; a word that is a command goes
to its meaning, which, with no command in flight, makes checks 3 to 6 and accepts or rejects. -/
def present (w : Word) (s : State) : Host.Outcome State Fault Refusal :=
  if s.busy then .next (raiseError .busy s)
  else
    match decode w with
    | .error _ => .next (raiseError .illegal s)
    | .ok i => exec i s

/-- Is the access refused with BUS (R63)? -/
def misaccess (off : BitVec 9) (width : Nat) : Bool := off.toNat % 4 != 0 || width != 4

/-- A host read (R61, R63): a refused one returns 0 and raises BUS. -/
def hostRead (off : BitVec 9) (width : Nat) (s : State) : State :=
  if misaccess off width then answer (.read off 0#32 Config.busErrorResponse) (raiseError .bus s)
  else
    let (v, s') := readReg (regAt off) s
    answer (.read off v false) s'

/-- A host write (R62, R63): a refused one changes no register and raises BUS; one to `CMD` presents a command. -/
def hostWrite (off : BitVec 9) (width : Nat) (v : Word) (s : State) : Host.Outcome State Fault Refusal :=
  if misaccess off width then .next (raiseError .bus (answer (.write off Config.busErrorResponse) s))
  else if regAt off = .cmd then present v (answer (.write off false) s)
  else .next (writeData (regAt off) v (answer (.write off false) s))

/-- The core's own step (R104): enabled exactly when a command is in flight, whose meaning then completes it; otherwise the
core waits (R233). -/
def coreStep (s : State) : Host.Outcome State Fault Refusal :=
  match s.pending with
  | none => .next s
  | some i => exec i s

/-- One input performed (R68). While `rst_n` is low the core is held in its reset state and host accesses are not performed
(R230, U17); its rising edge ends that. -/
def perform (i : Input) (s : State) : Host.Outcome State Fault Refusal :=
  match i with
  | .rstN level =>
    if s.rstN && level then .next s else .next { resetCore s with rstN := level }
  | .read off width => if s.rstN then .next (hostRead off width s) else .next (resetCore s)
  | .write off width v => if s.rstN then hostWrite off width v s else .next (resetCore s)
  | .coreTurn => if s.rstN then coreStep s else .next (resetCore s)

end Sys2Proof.Machine
end

