-- ==== Sys2Proof/Machine/Step.lean ====
section
/-! DEFINITION. One step of the machine: the next input at the port is performed; when none waits, the core has the turn, so
no accepted command is postponed for ever (spec/40_command_issue.md R105). -/

namespace Sys2Proof.Machine

/-- One step (R17, R68): a host access, the core's completion step, or a change of `rst_n`. -/
def step (s : State) : Host.Outcome State Fault Refusal :=
  match s.inputs with
  | [] => perform .coreTurn s
  | i :: rest => perform i { s with inputs := rest }

/-- `s` with a command word where the next step fetches one: the core has no program counter (R20), a command reaches it by
the host's write to `CMD` (R101), so that write becomes the next input (log entry 4). -/
def State.withFetchWord (s : State) (nbits w : Nat) : State :=
  { s with inputs := .write Reg.cmd.offset 4 (BitVec.ofNat 32 (w % 2 ^ nbits)) :: s.inputs }

end Sys2Proof.Machine
end

