-- ==== Sys2Proof/Machine/Assembly.lean ====
section
/-! DEFINITION. The host assembly of spec/30_encoding.md R87 and R88: each operation and pseudo-instruction, host programs and
how they run, and the results of the reads. An access is one input at the port. A `wait` is the loop of R88, whose polls see
the core before and after its turn (log entry 2). -/

namespace Sys2Proof.Machine

/-- `s`, with `i` as the next input at the port. -/
def State.facing (s : State) (i : Input) : State := { s with inputs := i :: s.inputs }

/-- `s`, with the inputs `is` at the port and no others. -/
def State.given (s : State) (is : List Input) : State := { s with inputs := is }

/-- `s` after the port has answered a write to `r`. -/
def State.wrote (s : State) (r : Reg) : State := answer (.write r.offset false) s

/-! Accesses. -/

/-- `wr REG, v` (R87). -/
def hostWr (r : Reg) (v : Word) : Input := .write r.offset 4 v

/-- `rd REG` (R87). -/
def hostRd (r : Reg) : Input := .read r.offset 4

/-- `cmd MNEMONIC, L` (R87). -/
def hostCmd (i : Instr) : Input := hostWr .cmd (encode i)

/-- `ldkey K` (R88). -/
def ldkey (K : List Byte) : List Input := List.ofFn fun j : Fin 8 => hostWr (.key j) (le32 K j)

/-- `ldnonce N` (R88). -/
def ldnonce (N : List Byte) : List Input := List.ofFn fun j : Fin 3 => hostWr (.nonce j) (le32 N j)

/-- `ldrtag T` (R88). -/
def ldrtag (T : List Byte) : List Input := List.ofFn fun j : Fin 4 => hostWr (.rtag j) (le32 T j)

/-- `lddin B` (R88): the words `B` covers; a last partial word is filled with zero bytes, which `le32` reads there. -/
def lddin (B : List Byte) : List Input :=
  (List.range ((B.length + 3) / 4)).map fun j => hostWr (.din (Fin.ofNat 16 j)) (le32 B j)

/-- `rddout n` (R88): its reads; what it yields is `rddoutResult`. -/
def rddout (n : Nat) : List Input := (List.range ((n + 3) / 4)).map fun j => hostRd (.dout (Fin.ofNat 16 j))

/-- `rdtag` (R88). -/
def rdtag : List Input := List.ofFn fun j : Fin 4 => hostRd (.tag j)

/-- `clr` (R88). -/
def hostClr : Input := hostWr .status 0x00000016#32

/-! Host programs. -/

/-- What a host program does next: one access, or a `wait` of which `polls` reads of STATUS, if the loop comes to so many,
fall before the core's turn. -/
inductive HostOp where
  | access (i : Input)
  | wait (polls : Nat)
  deriving DecidableEq, Repr

/-- A list of accesses as a host program. -/
def accesses (is : List Input) : List HostOp := is.map .access

/-- `run MNEMONIC, L` (R88). -/
def hostRun (polls : Nat) (i : Instr) : List HostOp := [.access (hostCmd i), .wait polls]

/-- One outcome after another: a stop stays. -/
def andThen (o : Host.Outcome State Fault Refusal) (f : State → Host.Outcome State Fault Refusal) :
    Host.Outcome State Fault Refusal :=
  match o with
  | .next s => f s
  | .fault r => .fault r
  | .refused r => .refused r

/-- The value of the read that the port answered last (0 where it has answered none). -/
def State.lastRead (s : State) : Word :=
  match s.transfers.getLast? with
  | some (.read _ v _) => v
  | some (.write _ _) => 0#32
  | none => 0#32

/-- `wait` (R88): `rd STATUS` is repeated until bit 0 of the value read is 0. The core's turn falls after `polls` reads, if
BUSY has not been read as 0 by then; the read after it sees BUSY = 0 (`hostWait_reads_idle`). -/
def hostWait : Nat → State → Host.Outcome State Fault Refusal
  | 0, s => andThen (step (s.facing .coreTurn)) fun t => step (t.facing (hostRd .status))
  | polls + 1, s =>
    andThen (step (s.facing (hostRd .status))) fun t => if t.lastRead.getLsbD 0 then hostWait polls t else .next t

/-- A host program run to its end, its accesses taken ahead of whatever else waits at the port. -/
def runHost : List HostOp → State → Host.Outcome State Fault Refusal
  | [], s => .next s
  | .access i :: ops, s => andThen (step (s.facing i)) (runHost ops)
  | .wait polls :: ops, s => andThen (hostWait polls s) (runHost ops)

/-! What the host has read. -/

/-- The words read from DOUT, in order. -/
def doutWords (ts : List Transfer) : List Word :=
  ts.filterMap fun t =>
    match t with
    | .read off v _ => match regAt off with
      | .dout _ => some v
      | _ => none
    | .write _ _ => none

/-- The words read from TAG, in order. -/
def tagWords (ts : List Transfer) : List Word :=
  ts.filterMap fun t =>
    match t with
    | .read off v _ => match regAt off with
      | .tag _ => some v
      | _ => none
    | .write _ _ => none

/-- The result of `rddout n` (R88), `ws` being the words it read: the first `n` bytes of their little-endian
concatenation. -/
def rddoutResult (n : Nat) (ws : List Word) : List Byte := (bytesOf ws).take n

/-- The results of an `rddout` of each of the lengths in turn, `ws` being all the words they read. -/
def rddoutResults : List Nat → List Word → List (List Byte)
  | [], _ => []
  | n :: ns, ws => rddoutResult n (ws.take ((n + 3) / 4)) :: rddoutResults ns (ws.drop ((n + 3) / 4))

end Sys2Proof.Machine
end

