-- ==== Sys2Proof/Safety.lean ====
section
/-! DEFINITION. What every state the core can be in satisfies: the invariant that claims about all states rest on
(spec/10_state.md R30, R43, R44; spec/40_command_issue.md R102, R103; spec/43_aead.md R164, R176). -/

namespace Sys2Proof.Machine

/-- Checks 3 to 6 of R102 hold of a command in this state: what acceptance rests on. -/
def issuable (i : Instr) (s : State) : Bool :=
  i.wf && admitted i s.phase && (!needsKeyNonce i || (s.keyv && s.noncev))

/-- A session's authenticator is loaded in every phase but IDLE and OPEN_DECRYPT (R43). -/
def Phase.hasOtk : Phase → Bool
  | .idle => false
  | .openDecrypt => false
  | .mac => true
  | .macTail => true
  | .sealAad => true
  | .sealData => true
  | .sealTail => true
  | .openAad => true
  | .openData => true
  | .openTail => true

/-- An open whose tag has not been verified yet. -/
def Phase.unverifiedOpen : Phase → Bool
  | .openAad => true
  | .openData => true
  | .openTail => true
  | .idle => false
  | .mac => false
  | .macTail => false
  | .sealAad => false
  | .sealData => false
  | .sealTail => false
  | .openDecrypt => false

/-- The invariant of the core. -/
structure Inv (s : State) : Prop where
  /-- ACC is fully reduced (R43, R145). -/
  acc_lt : s.acc < polyP
  /-- R is clamped (R43). -/
  r_clamped : clamp s.polyR = s.polyR
  /-- ERRCODE is 0 exactly when ERR is 0 (R30, R200). -/
  errcode_iff : s.errcode = .noError ↔ s.err = false
  /-- A command in flight passed its checks, and what they read has not changed (R71, R102, R103). -/
  pending_ok : ∀ i, s.pending = some i → issuable i s = true
  /-- In an AEAD phase the key and the nonce are complete (R109). -/
  aead_keyed : s.phase.isAead = true → s.keyv = true ∧ s.noncev = true
  /-- No one-time key outlives its session (R43). -/
  otk_gone : s.phase.hasOtk = false → s.polyR = 0#128 ∧ s.polyS = 0#128 ∧ s.acc = 0
  /-- Within a session TAG is zero: it is cleared at the INIT and written only by the command that ends one (R40). -/
  tag_clear : s.phase ≠ .idle → s.tag = Vector.replicate 4 0#32
  /-- Decryption is open only after a tag that matched (R28, R176), which the rest of an unverified open never claims. -/
  decrypt_verified : s.phase = .openDecrypt → s.authOk = true
  /-- An AEAD session that is not past its verify has AUTH_OK clear (R28, R167, R168). -/
  auth_clear : s.phase.isAead = true → s.phase ≠ .openDecrypt → s.authOk = false
  /-- Before a tag has matched, no plaintext of an open stands in DOUT (R164, R176). -/
  no_plaintext : s.phase.unverifiedOpen = true → s.dout = Vector.replicate 16 0#32
  /-- While `rst_n` is low every register and hidden element has its reset value (R230). -/
  held_in_reset : s.rstN = false → resetCore s = s

end Sys2Proof.Machine
end

