-- ==== Sys2Proof/Certificates/Slice0/Obligations.lean ====
section
/-! DEFINITION. The statements for the provers, taken from the numbered rules of spec/. Each docstring names the rules it is
about. A state whose next input is `i` is written `s.facing i`; after that input has been taken the state is `s` again, with
the port's answer logged where the input is a host access. -/

open Sys2Proof Sys2Proof.Machine

namespace Sys2Proof.Machine

/-- The key and nonce are completely written (R32). -/
def State.keyed (s : State) : Prop := s.keyv = true ∧ s.noncev = true

/-- The core is out of reset, in IDLE, with no command in flight: where the host sequences start. -/
def State.atRest (s : State) : Prop := s.rstN = true ∧ s.phase = .idle ∧ s.pending = none

/-- The unassigned opcodes of R84. -/
def unassignedOpcodes : List (BitVec 5) :=
  [0x00, 0x06, 0x07, 0x10, 0x11, 0x12, 0x13, 0x14, 0x15, 0x16, 0x17, 0x18, 0x19, 0x1A, 0x1B, 0x1C, 0x1D]

/-- A LEN outside the legal set of its opcode, as R85 lists them. -/
def lengthError (i : Instr) : Prop :=
  (i.opc ∈ ([0x01, 0x05, 0x08, 0x09, 0x0C, 0x0E, 0x1E, 0x1F] : List (BitVec 5)) ∧ i.lenField.toNat ≠ 0) ∨
  (i.opc = 0x03 ∧ i.lenField.toNat ≠ 32) ∨
  (i.opc ∈ ([0x02, 0x04, 0x0A, 0x0B, 0x0D, 0x0F] : List (BitVec 5)) ∧ 64 < i.lenField.toNat)

/-- The table of R108, row by row. -/
def admittedIn : Instr → List Phase
  | .chachaBlock _ => [.idle, .mac, .macTail]
  | .chachaXor _ => [.idle, .mac, .macTail]
  | .polyInit _ => [.idle]
  | .polyUpdate _ => [.mac]
  | .polyFinal _ => [.mac, .macTail]
  | .aeadSealInit _ => [.idle]
  | .aeadOpenInit _ => [.idle]
  | .aeadAad _ => [.sealAad, .openAad]
  | .aeadEnc _ => [.sealAad, .sealData]
  | .aeadTag _ => [.sealAad, .sealData, .sealTail]
  | .aeadAbsorb _ => [.openAad, .openData]
  | .aeadVerify _ => [.openAad, .openData, .openTail]
  | .aeadDecrypt _ => [.openDecrypt]
  | .abort _ => [.idle, .mac, .macTail, .sealAad, .sealData, .sealTail, .openAad, .openData, .openTail, .openDecrypt]
  | .zeroize _ => [.idle, .mac, .macTail, .sealAad, .sealData, .sealTail, .openAad, .openData, .openTail, .openDecrypt]

/-- The reserved offsets of R39, by the word they lie in. -/
def reservedOffset (off : BitVec 9) : Prop :=
  off.toNat = 0x014 ∨ (0x028 ≤ off.toNat ∧ off.toNat ≤ 0x03C) ∨ off.toNat = 0x06C ∨
  (0x090 ≤ off.toNat ∧ off.toNat ≤ 0x0FC) ∨ (0x180 ≤ off.toNat ∧ off.toNat ≤ 0x1FC)

/-- The table of R180: the phase after an accepted command completes, `ok` saying whether a verify matched. -/
def nextPhase (i : Instr) (ok : Bool) (p : Phase) : Phase :=
  match i, p with
  | .polyInit _, .idle => .mac
  | .polyUpdate len, .mac => if len.toNat % 16 ≠ 0 then .macTail else .mac
  | .polyFinal _, _ => .idle
  | .aeadSealInit _, _ => .sealAad
  | .aeadOpenInit _, _ => .openAad
  | .aeadAad len, .sealAad => if len.toNat % 16 ≠ 0 then .sealData else .sealAad
  | .aeadAad len, .openAad => if len.toNat % 16 ≠ 0 then .openData else .openAad
  | .aeadEnc len, _ => if len.toNat = 64 then .sealData else .sealTail
  | .aeadTag _, _ => .idle
  | .aeadAbsorb len, _ => if len.toNat = 64 then .openData else .openTail
  | .aeadVerify _, _ => if ok then .openDecrypt else .idle
  | .aeadDecrypt len, _ => if len.toNat = 64 then .openDecrypt else .idle
  | .abort _, _ => .idle
  | .zeroize _, _ => .idle
  | _, p => p

/-- A fixed length for every part but the last, and at most 64 bytes for each (R128, R148, R171, R173). -/
def partsOf (fits : Nat → Prop) : List (List Byte) → Prop
  | [] => True
  | [p] => p.length ≤ 64
  | p :: ps => p.length ≤ 64 ∧ fits p.length ∧ partsOf fits ps

/-- Parts of exactly 64 bytes but the last (R128, R173, R182). -/
def blockParts (ps : List (List Byte)) : Prop := partsOf (· = 64) ps

/-- Parts of a length that is a multiple of 16 but the last (R148, R171). -/
def chunkParts (ps : List (List Byte)) : Prop := partsOf (· % 16 = 0) ps

/-- The LEN field for a part. -/
def partLen (p : List Byte) : BitVec 7 := BitVec.ofNat 7 p.length

/-- `lddin p; run MNEMONIC, len(p)` for each part in order (R128, R148, R181, R182); the wait of part `j` takes `polls j`. -/
def feed (polls : Nat → Nat) (cmd : BitVec 7 → Instr) : List (List Byte) → List HostOp
  | [] => []
  | p :: ps => accesses (lddin p) ++ hostRun (polls 0) (cmd (partLen p)) ++ feed (fun j => polls (j + 1)) cmd ps

/-- `lddin p; run MNEMONIC, len(p); rddout len(p)` for each part in order (R128, R181, R182); the wait of part `j` takes
`polls j`. -/
def feedRead (polls : Nat → Nat) (cmd : BitVec 7 → Instr) : List (List Byte) → List HostOp
  | [] => []
  | p :: ps => accesses (lddin p) ++ hostRun (polls 0) (cmd (partLen p)) ++ accesses (rddout p.length) ++
      feedRead (fun j => polls (j + 1)) cmd ps

/-- What the `rddout` of each part yielded between `s` and `t`, concatenated (R88). -/
def doutRead (ps : List (List Byte)) (s t : State) : List Byte :=
  (rddoutResults (ps.map List.length) (doutWords (t.transfers.drop s.transfers.length))).flatten

/-- The bytes of the words that `rdtag` read between `s` and `t` (R88, R40). -/
def tagRead (s t : State) : List Byte := bytesOf (tagWords (t.transfers.drop s.transfers.length))

/-- An input that resets the core (R230, R231). -/
def Input.resets : Input → Prop
  | .rstN level => level = false
  | .write off width v => off = Reg.ctrl.offset ∧ width = 4 ∧ v.getLsbD 31 = true
  | .read _ _ => False
  | .coreTurn => False

/-- All of `s` but the secrets no host may read: KEY, R, S and ACC (R36, R43). -/
def sameButSecrets (s t : State) : Prop :=
  t = { s with key := t.key, polyR := t.polyR, polyS := t.polyS, acc := t.acc }

end Sys2Proof.Machine

/-! ## Encoding -/

/-- Decoding an encoded command gives it back with every LEN, and a word that decodes to a command is its encoding: each
word has one meaning and no bit is dropped (R80 to R83). -/
def Obligations.DecodeAndEncodeAgree : Prop :=
  (∀ i : Instr, decode (encode i) = .ok i) ∧ ∀ (w : Word) (i : Instr), decode w = .ok i → encode i = w

/-- R83: which words select a row, by fields and by mask and match; LEN is the only free field. -/
def Obligations.WordSelectsItsRow : Prop :=
  ∀ (w : Word) (i : Instr),
    (decode w = .ok i ↔
      w.extractLsb' 0 5 = i.opc ∧ w.extractLsb' 5 3 = 0#3 ∧ w.extractLsb' 15 17 = 0#17 ∧ w.extractLsb' 8 7 = i.lenField) ∧
    (decode w = .ok i ↔ w &&& 0xFFFF80FF#32 = i.opc.setWidth 32 ∧ w.extractLsb' 8 7 = i.lenField)

/-- A word of each of the fifteen rows of R82 decodes to the command the row names. -/
def Obligations.SpecWordsDecode : Prop :=
  decode 0x00000001#32 = .ok (.chachaBlock 0#7) ∧ decode 0x00004002#32 = .ok (.chachaXor 64#7) ∧
  decode 0x00002003#32 = .ok (.polyInit 32#7) ∧ decode 0x00002204#32 = .ok (.polyUpdate 34#7) ∧
  decode 0x00000005#32 = .ok (.polyFinal 0#7) ∧ decode 0x00000008#32 = .ok (.aeadSealInit 0#7) ∧
  decode 0x00000009#32 = .ok (.aeadOpenInit 0#7) ∧ decode 0x00000C0A#32 = .ok (.aeadAad 12#7) ∧
  decode 0x0000320B#32 = .ok (.aeadEnc 50#7) ∧ decode 0x0000000C#32 = .ok (.aeadTag 0#7) ∧
  decode 0x0000200D#32 = .ok (.aeadAbsorb 32#7) ∧ decode 0x0000000E#32 = .ok (.aeadVerify 0#7) ∧
  decode 0x0000200F#32 = .ok (.aeadDecrypt 32#7) ∧ decode 0x0000001E#32 = .ok (.abort 0#7) ∧
  decode 0x0000001F#32 = .ok (.zeroize 0#7)

/-! ## Issue -/

/-- R84: an unassigned opcode or a reserved bit raises ILLEGAL with no other effect (when no command is in flight: BUSY comes
first, R102); the all-zero word is illegal. -/
def Obligations.IllegalWordRaisesIllegal : Prop :=
  (∀ (s : State) (w : Word), s.rstN = true → s.busy = false →
    (w.extractLsb' 0 5 ∈ unassignedOpcodes ∨ w.extractLsb' 5 3 ≠ 0#3 ∨ w.extractLsb' 15 17 ≠ 0#17) →
    step (s.facing (hostWr .cmd w)) = .next (raiseError .illegal (s.wrote .cmd))) ∧
  (∀ s : State, s.rstN = true → s.busy = false →
    step (s.facing (hostWr .cmd 0#32)) = .next (raiseError .illegal (s.wrote .cmd))) ∧
  ErrCode.illegal.code = 2#4

/-- R85: a LEN outside the legal set raises BADLEN with no other effect (when no command is in flight: BUSY comes first,
R102). -/
def Obligations.WrongLengthRaisesBadlen : Prop :=
  (∀ (s : State) (i : Instr), s.pending = none → lengthError i → exec i s = .next (raiseError .badlen s)) ∧
  ErrCode.badlen.code = 3#4

/-- R102: the checks on a command word, in order, the first that applies deciding; a rejected command changes only ERR and
ERRCODE. What the checks look up is as R85, R108 and R109 list it. -/
def Obligations.ChecksApplyInOrder : Prop :=
  (∀ i : Instr, i.wf = false ↔ lengthError i) ∧
  (∀ (i : Instr) (p : Phase), admitted i p = true ↔ p ∈ admittedIn i) ∧
  (∀ i : Instr, needsKeyNonce i = true ↔ i.opc ∈ ([0x01, 0x02, 0x08, 0x09] : List (BitVec 5))) ∧
  ∀ (s : State) (w : Word), s.rstN = true →
    step (s.facing (hostWr .cmd w)) = .next (
      if s.busy = true then raiseError .busy (s.wrote .cmd)
      else match decode w with
        | .error _ => raiseError .illegal (s.wrote .cmd)
        | .ok i =>
          if i.wf = false then raiseError .badlen (s.wrote .cmd)
          else if admitted i s.phase = false then raiseError .sequence (s.wrote .cmd)
          else if needsKeyNonce i = true ∧ s.keyv = false then raiseError .key (s.wrote .cmd)
          else if needsKeyNonce i = true ∧ s.noncev = false then raiseError .nonce (s.wrote .cmd)
          else { s.wrote .cmd with pending := some i })

/-- R103: acceptance sets PENDING and with it BUSY, and nothing else, for every command the checks of R102 pass. -/
def Obligations.AcceptanceSetsPendingOnly : Prop :=
  ∀ (s : State) (i : Instr), s.pending = none → issuable i s = true →
    ∃ t, exec i s = .next t ∧ t = { s with pending := some i } ∧ t.busy = true ∧ t.done = s.done ∧ t.err = s.err ∧
      t.errcode = s.errcode

/-- A presented command that is not accepted changes nothing but ERR and ERRCODE, which name one of R102's errors. -/
def Obligations.RejectionChangesOnlyErr : Prop :=
  ∀ (s t : State) (i : Instr), s.pending = none → exec i s = .next t → t.pending = none →
    t = { s with err := true, errcode := t.errcode } ∧
    t.errcode ∈ ([.badlen, .sequence, .key, .nonce] : List ErrCode)

/-- A step runs the command: a CMD write of a word that decodes to `i`, no command in flight, is `exec i` once the write is
answered; the core's turn with `i` in flight is `exec i`, whether the turn is given or no input waits (that the core then
has the turn is the model's choice, log entry 2). -/
def Obligations.StepRunsTheCommand : Prop :=
  (∀ (s : State) (w : Word) (i : Instr), s.rstN = true → s.busy = false → decode w = .ok i →
    step (s.facing (hostWr .cmd w)) = exec i (s.wrote .cmd)) ∧
  (∀ (s : State) (i : Instr), s.rstN = true → s.pending = some i → step (s.facing .coreTurn) = exec i s) ∧
  (∀ (s : State) (i : Instr), s.rstN = true → s.pending = some i → s.inputs = [] → step s = exec i s)

/-! ## Register access -/

/-- R106: what each write does while a command is in flight: BUSY and nothing else for the inputs, CMD and CTRL without
SRST; STATUS and SRST as always; read-only and reserved offsets ignored. -/
def Obligations.BusyRefusesInputWrites : Prop :=
  ∀ (s : State) (off : BitVec 9) (v : Word), s.rstN = true → s.busy = true → off.toNat % 4 = 0 →
    step (s.facing (.write off 4 v)) = .next (
      let a := answer (.write off false) s
      match regAt off with
      | .cmd => raiseError .busy a
      | .ctrl => if v.getLsbD 31 = true then resetCore a else raiseError .busy a
      | .counter => raiseError .busy a
      | .key _ => raiseError .busy a
      | .nonce _ => raiseError .busy a
      | .rtag _ => raiseError .busy a
      | .din _ => raiseError .busy a
      | .status => writeStatus v a
      | _ => a)

/-- R107: while busy a result register reads as a free value (whatever the model's draw counter is) and every other register
as its defined value, STATUS showing BUSY = 1 and the phase from before the command. The counter that numbers the free values
is the model's own (log entry 1). -/
def Obligations.BusyReadsOfResultsAreFree : Prop :=
  (∀ (s : State) (r : Reg), s.rstN = true → s.busy = true → r ≠ .reserved →
    step (s.facing (hostRd r)) = .next (
      if r.isResult = true
      then answer (.read r.offset (Config.busyReadValue s.draws) false) { s with draws := s.draws + 1 }
      else answer (.read r.offset (regValue r s) false) s)) ∧
  (∀ s : State, s.busy = true →
    (regValue .status s).getLsbD 0 = true ∧ (regValue .status s).extractLsb' 12 4 = s.phase.code) ∧
  (∀ r : Reg, r.isResult = true ↔
    r = .counter ∨ r = .aadlenLo ∨ r = .aadlenHi ∨ r = .ctlenLo ∨ r = .ctlenHi ∨ (∃ j, r = .tag j) ∨ ∃ j, r = .dout j)

/-- R61: with no command in flight a read returns the register's contents and changes nothing: only the port's answer is
logged. The contents, register by register; `statusWord` is the word `StatusFieldsAtTheirBits` is about. -/
def Obligations.ReadsReturnContentsAndChangeNothing : Prop :=
  (∀ (s : State) (off : BitVec 9), s.rstN = true → s.busy = false → off.toNat % 4 = 0 →
    step (s.facing (.read off 4)) = .next (answer (.read off (regValue (regAt off) s) false) s)) ∧
  ∀ s : State,
    regValue .id s = 0x30324343#32 ∧
    (∀ i : Nat, (regValue .ctrl s).getLsbD i = if i = 0 then s.ie else if i = 1 then s.eie else false) ∧
    regValue .cmd s = 0#32 ∧ regValue .status s = s.statusWord ∧ regValue .counter s = s.counter ∧
    (regValue .aadlenLo s).toNat = s.aadlen.toNat % 2 ^ 32 ∧ (regValue .aadlenHi s).toNat = s.aadlen.toNat / 2 ^ 32 ∧
    (regValue .ctlenLo s).toNat = s.ctlen.toNat % 2 ^ 32 ∧ (regValue .ctlenHi s).toNat = s.ctlen.toNat / 2 ^ 32 ∧
    (∀ j, regValue (.key j) s = 0#32) ∧ (∀ j, regValue (.nonce j) s = s.nonce[j]) ∧ (∀ j, regValue (.tag j) s = s.tag[j]) ∧
    (∀ j, regValue (.rtag j) s = s.rtag[j]) ∧ (∀ j, regValue (.din j) s = s.din[j]) ∧
    (∀ j, regValue (.dout j) s = s.dout[j]) ∧ regValue .reserved s = 0#32

/-- R63: a misaligned or non-32-bit access changes no register, a refused read returns 0, and BUS is raised, whatever the
core is doing; the bus answers as BUS_ERROR_RESPONSE says. -/
def Obligations.RefusedAccessRaisesBus : Prop :=
  (∀ (s : State) (off : BitVec 9) (width : Nat) (v : Word), s.rstN = true → (off.toNat % 4 ≠ 0 ∨ width ≠ 4) →
    step (s.facing (.read off width)) =
      .next (answer (.read off 0#32 Config.busErrorResponse) { s with err := true, errcode := .bus }) ∧
    step (s.facing (.write off width v)) =
      .next (answer (.write off Config.busErrorResponse) { s with err := true, errcode := .bus })) ∧
  ErrCode.bus.code = 9#4

/-- R39: reserved offsets read 0 and ignore writes without an error, and so do the reserved bits of CTRL and STATUS; and the
read-only registers ignore writes without an error, busy or not (R62, R21, R35, R38, R40). -/
def Obligations.ReservedSpaceReadsZeroIgnoresWrites : Prop :=
  (∀ (s : State) (off : BitVec 9) (v : Word), s.rstN = true → off.toNat % 4 = 0 → reservedOffset off →
    step (s.facing (.read off 4)) = .next (answer (.read off 0#32 false) s) ∧
    step (s.facing (.write off 4 v)) = .next (answer (.write off false) s)) ∧
  (∀ s : State, (regValue .ctrl s) &&& 0xFFFFFFFC#32 = 0#32 ∧ (regValue .status s) &&& 0xFFF800E0#32 = 0#32) ∧
  (∀ (s : State) (v : Word), writeData .ctrl v s = writeData .ctrl (v &&& 0x80000003#32) s ∧
    writeData .status v s = writeData .status (v &&& 0x00000016#32) s) ∧
  (∀ (s : State) (r : Reg) (v : Word), s.rstN = true →
    (r = .id ∨ r = .aadlenLo ∨ r = .aadlenHi ∨ r = .ctlenLo ∨ r = .ctlenHi ∨ (∃ j, r = .tag j) ∨ ∃ j, r = .dout j) →
    step (s.facing (hostWr r v)) = .next (s.wrote r))

/-- The register map: each register stands at its offset and at no other aligned one, and the offsets outside it are the
reserved ones (section 2 of spec/10_state.md, R39). -/
def Obligations.RegisterMapIsTheSpecs : Prop :=
  (∀ off : BitVec 9, off.toNat % 4 = 0 → regAt off ≠ .reserved → (regAt off).offset = off) ∧
  (∀ r : Reg, r ≠ .reserved → regAt r.offset = r) ∧
  (∀ off : BitVec 9, off.toNat % 4 = 0 → (regAt off = .reserved ↔ reservedOffset off)) ∧
  Reg.id.offset = 0x000#9 ∧ Reg.ctrl.offset = 0x004#9 ∧ Reg.cmd.offset = 0x008#9 ∧ Reg.status.offset = 0x00C#9 ∧
  Reg.counter.offset = 0x010#9 ∧ Reg.aadlenLo.offset = 0x018#9 ∧ Reg.aadlenHi.offset = 0x01C#9 ∧
  Reg.ctlenLo.offset = 0x020#9 ∧ Reg.ctlenHi.offset = 0x024#9 ∧
  (∀ j : Fin 8, (Reg.key j).offset.toNat = 0x040 + 4 * j) ∧ (∀ j : Fin 3, (Reg.nonce j).offset.toNat = 0x060 + 4 * j) ∧
  (∀ j : Fin 4, (Reg.tag j).offset.toNat = 0x070 + 4 * j) ∧ (∀ j : Fin 4, (Reg.rtag j).offset.toNat = 0x080 + 4 * j) ∧
  (∀ j : Fin 16, (Reg.din j).offset.toNat = 0x100 + 4 * j) ∧ (∀ j : Fin 16, (Reg.dout j).offset.toNat = 0x140 + 4 * j)

/-- R21: ID always reads 0x30324343 (bytes "CC20") and writes to it are ignored. -/
def Obligations.IdIsHardwired : Prop :=
  (∀ (s : State) (v : Word), s.rstN = true →
    step (s.facing (.read 0x000#9 4)) = .next (answer (.read 0x000#9 0x30324343#32 false) s) ∧
    step (s.facing (.write 0x000#9 4 v)) = .next (answer (.write 0x000#9 false) s)) ∧
  leBytes 4 (0x30324343#32).toNat = [0x43, 0x43, 0x32, 0x30]

/-- `ldkey K` and `ldnonce N` (R88), out of an AEAD phase with no command in flight, leave KEY and NONCE holding the byte
strings, KEYV and NONCEV set (R32, R36, R37), and every other register as it was. -/
def Obligations.KeyAndNonceAreLoaded : Prop :=
  ∀ (s : State) (K N : List Byte), s.rstN = true → s.busy = false → s.phase.isAead = false →
    K.length = 32 → N.length = 12 →
    ∃ t, Host.Core.run core (ldkey K ++ ldnonce N).length (s.given (ldkey K ++ ldnonce N)) = .next t ∧
      groupBytes t.key = K ∧ groupBytes t.nonce = N ∧ t.keyv = true ∧ t.noncev = true ∧
      t = { s with inputs := [], transfers := t.transfers, key := t.key, nonce := t.nonce, kmask := t.kmask,
                   nmask := t.nmask }

/-- `lddin B` (R88) with no command in flight puts `B` at the front of DIN, fills a last partial word with zero bytes and
leaves the words beyond, and everything else, unchanged (R38, R242). -/
def Obligations.InputBufferIsLoaded : Prop :=
  ∀ (s : State) (B : List Byte), s.rstN = true → s.busy = false → B.length ≤ 64 →
    ∃ t, Host.Core.run core (lddin B).length (s.given (lddin B)) = .next t ∧
      t.dinBytes B.length = B ∧
      (∀ j : Fin 16, t.din[j] = if j.val < (B.length + 3) / 4 then le32 B j else s.din[j]) ∧
      t = { s with inputs := [], transfers := t.transfers, din := t.din }

/-- `ldrtag T` (R88) with no command in flight leaves RTAG holding the tag and RTAGV set, in every phase (R33, R41). -/
def Obligations.ReceivedTagIsLoaded : Prop :=
  ∀ (s : State) (T : List Byte), s.rstN = true → s.busy = false → T.length = 16 →
    ∃ t, Host.Core.run core (ldrtag T).length (s.given (ldrtag T)) = .next t ∧
      groupBytes t.rtag = T ∧ t.rtagv = true ∧
      t = { s with inputs := [], transfers := t.transfers, rtag := t.rtag, rmask := t.rmask }

/-- R203: in an AEAD phase, not busy, a write to KEYj, NONCEj or COUNTER is refused with LOCKED and changes no register and
no mask; in IDLE, MAC and MAC_TAIL it is not. -/
def Obligations.AeadPhaseLocksKeyNonceCounter : Prop :=
  (∀ (s : State) (r : Reg) (v : Word), s.rstN = true → s.busy = false → s.phase.isAead = true →
    (r = .counter ∨ (∃ j, r = .key j) ∨ ∃ j, r = .nonce j) →
    step (s.facing (hostWr r v)) = .next { s.wrote r with err := true, errcode := .locked }) ∧
  (∀ (s : State) (v : Word) (j : Fin 8) (k : Fin 3), s.rstN = true → s.busy = false →
    (s.phase = .idle ∨ s.phase = .mac ∨ s.phase = .macTail) →
    step (s.facing (hostWr .counter v)) = .next { s.wrote .counter with counter := v } ∧
    step (s.facing (hostWr (.key j) v)) = .next
      { s.wrote (.key j) with key := s.key.set j v, kmask := s.kmask ||| BitVec.ofNat 8 (2 ^ j.val) } ∧
    step (s.facing (hostWr (.nonce k) v)) = .next
      { s.wrote (.nonce k) with nonce := s.nonce.set k v, nmask := s.nmask ||| BitVec.ofNat 3 (2 ^ k.val) })

/-- The W1C bits of STATUS (R24, R207): a 1 in bit 1, 2 or 4 clears DONE, ERR with ERRCODE, or CWRAP; a 0 leaves it; nothing
else changes, busy or not. -/
def Obligations.StatusWriteClearsChosenBits : Prop :=
  ∀ (s : State) (v : Word), s.rstN = true →
    ∃ t, step (s.facing (hostWr .status v)) = .next t ∧
      t = { s.wrote .status with done := t.done, err := t.err, errcode := t.errcode, cwrap := t.cwrap } ∧
      t.done = (if v.getLsbD 1 = true then false else s.done) ∧
      t.err = (if v.getLsbD 2 = true then false else s.err) ∧
      t.errcode = (if v.getLsbD 2 = true then .noError else s.errcode) ∧
      t.cwrap = (if v.getLsbD 4 = true then false else s.cwrap)

/-- The fields of STATUS stand at the bits R24 gives them, ERRCODE with the numbers of R200 and PHASE with those of R31. -/
def Obligations.StatusFieldsAtTheirBits : Prop :=
  (ErrCode.noError.code = 0#4 ∧ ErrCode.busy.code = 1#4 ∧ ErrCode.illegal.code = 2#4 ∧ ErrCode.badlen.code = 3#4 ∧
    ErrCode.sequence.code = 4#4 ∧ ErrCode.key.code = 5#4 ∧ ErrCode.nonce.code = 6#4 ∧ ErrCode.auth.code = 7#4 ∧
    ErrCode.locked.code = 8#4 ∧ ErrCode.bus.code = 9#4) ∧
  (Phase.idle.code = 0x0#4 ∧ Phase.mac.code = 0x1#4 ∧ Phase.macTail.code = 0x2#4 ∧ Phase.sealAad.code = 0x4#4 ∧
    Phase.sealData.code = 0x5#4 ∧ Phase.sealTail.code = 0x6#4 ∧ Phase.openAad.code = 0x8#4 ∧ Phase.openData.code = 0x9#4 ∧
    Phase.openTail.code = 0xA#4 ∧ Phase.openDecrypt.code = 0xB#4) ∧
  ∀ s : State,
    let w := regValue .status s
    w.getLsbD 0 = s.busy ∧ w.getLsbD 1 = s.done ∧ w.getLsbD 2 = s.err ∧ w.getLsbD 3 = s.authOk ∧ w.getLsbD 4 = s.cwrap ∧
    w.extractLsb' 8 4 = s.errcode.code ∧ w.extractLsb' 12 4 = s.phase.code ∧
    w.getLsbD 16 = decide (∀ j : Fin 8, s.kmask.getLsbD j = true) ∧
    w.getLsbD 17 = decide (∀ j : Fin 3, s.nmask.getLsbD j = true) ∧
    w.getLsbD 18 = decide (∀ j : Fin 4, s.rmask.getLsbD j = true)

/-- R210: the interrupt output; after reset it is 0. A write to CTRL with bit 31 = 0, no command in flight, sets IE and EIE
and nothing else (R22), and a write to STATUS clears what it names (R24); what `irq` then is, for every word written: it falls
when the pending bit or its enable is cleared. -/
def Obligations.InterruptIsALevel : Prop :=
  (∀ s : State, s.irq = true ↔ (s.ie = true ∧ s.done = true) ∨ (s.eie = true ∧ s.err = true)) ∧
  State.reset.irq = false ∧
  (∀ (s : State) (v : Word), s.rstN = true → ∃ t, step (s.facing (hostWr .status v)) = .next t ∧
    (t.irq = true ↔ (s.ie = true ∧ s.done = true ∧ v.getLsbD 1 = false) ∨ (s.eie = true ∧ s.err = true ∧ v.getLsbD 2 = false))) ∧
  (∀ (s : State) (v : Word), s.rstN = true → s.busy = false → v.getLsbD 31 = false →
    ∃ t, step (s.facing (hostWr .ctrl v)) = .next t ∧
      t = { s.wrote .ctrl with ie := v.getLsbD 0, eie := v.getLsbD 1 } ∧
      (t.irq = true ↔ (v.getLsbD 0 = true ∧ s.done = true) ∨ (v.getLsbD 1 = true ∧ s.err = true)))

/-! ## Reset -/

/-- R231: a write to CTRL with bit 31 = 1 resets the core within that step, busy or not, and discards the other bits. What
is not the core's (the inputs to come, the port's log, the draw counter: the model's own, log entries 1 and 2; `rst_n`)
stays. -/
def Obligations.SoftResetAtAnyTime : Prop :=
  ∀ (s : State) (v : Word), s.rstN = true → v.getLsbD 31 = true →
    step (s.facing (hostWr .ctrl v)) = .next
      { State.reset with inputs := s.inputs, transfers := s.transfers ++ [.write Reg.ctrl.offset false],
                         draws := s.draws, rstN := true }

/-- R232: a reset, soft or hardware, while a command is in flight discards it: the state is the reset state (but for what is
not the core's), so none of its effects appears and DONE is not set, and the core's next turn changes nothing. -/
def Obligations.ResetDiscardsThePendingCommand : Prop :=
  ∀ (s : State) (v : Word), s.rstN = true → s.busy = true → v.getLsbD 31 = true →
    (∃ t, step (s.facing (hostWr .ctrl v)) = .next t ∧
      t = { State.reset with inputs := s.inputs, transfers := t.transfers, draws := s.draws } ∧
      t.pending = none ∧ t.done = false ∧ step (t.facing .coreTurn) = .next t) ∧
    (∃ t, step (s.facing (.rstN false)) = .next t ∧
      t = { State.reset with inputs := s.inputs, transfers := s.transfers, draws := s.draws, rstN := false } ∧
      t.pending = none ∧ t.done = false ∧
      ∃ u, step (t.facing (.rstN true)) = .next u ∧
        u = { State.reset with inputs := s.inputs, transfers := s.transfers, draws := s.draws } ∧
        u.pending = none ∧ u.done = false ∧ step (u.facing .coreTurn) = .next u)

/-- R230: `rst_n` low puts every register and hidden element at its reset value and keeps it there, host accesses not being
performed; the rising edge ends that with the reset values in place. That such an access leaves no answer in the port's log
is the model's choice (log entry 7). -/
def Obligations.HardwareResetHoldsTheCore : Prop :=
  (∀ s : State, ∃ t, step (s.facing (.rstN false)) = .next t ∧
    t = { State.reset with inputs := s.inputs, transfers := s.transfers, draws := s.draws, rstN := false } ∧
    (∀ (off : BitVec 9) (width : Nat) (v : Word),
      step (t.facing (.read off width)) = .next t ∧ step (t.facing (.write off width v)) = .next t ∧
      step (t.facing .coreTurn) = .next t) ∧
    step (t.facing (.rstN true)) = .next { t with rstN := true })

/-- The reset values a host reads (R230): ID, and 0 at every other aligned offset; `irq` is 0 and nothing is hidden. -/
def Obligations.ResetValuesRead : Prop :=
  (∀ off : BitVec 9, off.toNat % 4 = 0 → regValue (regAt off) State.reset = if off = 0#9 then 0x30324343#32 else 0#32) ∧
  State.reset.irq = false ∧ State.reset.kmask = 0#8 ∧ State.reset.nmask = 0#3 ∧ State.reset.rmask = 0#4 ∧
  State.reset.polyR = 0#128 ∧ State.reset.polyS = 0#128 ∧ State.reset.acc = 0 ∧ State.reset.pending = none ∧
  groupBytes State.reset.key = zeros 32

/-! ## Completion -/

/-- R104: the completion of the command in flight always answers a next state in which no command is in flight; DONE is set
and ERR and ERRCODE are kept, but for a verify that raises AUTH, which leaves DONE alone. With no command in flight the
core's step changes nothing. -/
def Obligations.CompletionEndsTheCommand : Prop :=
  (∀ (s : State) (i : Instr), s.rstN = true → s.pending = some i →
    ∃ t, step (s.facing .coreTurn) = .next t ∧ t.pending = none ∧ t.busy = false ∧
      ((t.done = true ∧ t.err = s.err ∧ t.errcode = s.errcode) ∨
       ((∃ len, i = .aeadVerify len) ∧ t.done = s.done ∧ t.err = true ∧ t.errcode = .auth))) ∧
  (∀ s : State, s.rstN = true → s.pending = none → step (s.facing .coreTurn) = .next s)

/-- CHACHA_BLOCK (R132): DOUT is the block at COUNTER; COUNTER and everything else but PENDING and DONE stay. -/
def Obligations.ChachaBlockResult : Prop :=
  ∀ s : State, s.pending = some (.chachaBlock 0#7) →
    ∃ t, exec (.chachaBlock 0#7) s = .next t ∧
      groupBytes t.dout = block (groupBytes s.key) (groupBytes s.nonce) s.counter ∧
      t = { s with dout := t.dout, pending := none, done := true }

/-- CHACHA_XOR (R133): DOUT is one chunk of `encrypt` at COUNTER, zero-filled; a non-empty chunk steps COUNTER, and CWRAP
records a wrap (R131). -/
def Obligations.ChachaXorResult : Prop :=
  ∀ (s : State) (len : BitVec 7), s.pending = some (.chachaXor len) → len.toNat ≤ 64 →
    ∃ t, exec (.chachaXor len) s = .next t ∧
      groupBytes t.dout =
        encrypt (groupBytes s.key) (groupBytes s.nonce) s.counter (s.dinBytes len.toNat) ++ zeros (64 - len.toNat) ∧
      t.counter = (if len.toNat = 0 then s.counter else s.counter + 1#32) ∧
      (t.cwrap = true ↔ s.cwrap = true ∨ (len.toNat ≠ 0 ∧ s.counter = 0xFFFFFFFF#32)) ∧
      t = { s with dout := t.dout, counter := t.counter, cwrap := t.cwrap, pending := none, done := true }

/-- `CounterStep` (R131) modulo 2^32, with CWRAP set exactly at the wrap. -/
def Obligations.CounterStepWraps : Prop :=
  ∀ s : State, (counterStep s).counter.toNat = (s.counter.toNat + 1) % 2 ^ 32 ∧
    ((counterStep s).cwrap = true ↔ s.cwrap = true ∨ s.counter.toNat = 2 ^ 32 - 1) ∧
    counterStep s = { s with counter := (counterStep s).counter, cwrap := (counterStep s).cwrap }

/-- POLY_INIT (R150): the one-time key is DIN's first 32 bytes; r is clamped, s is not, the accumulator and TAG are 0. -/
def Obligations.PolyInitResult : Prop :=
  ∀ s : State, s.pending = some (.polyInit 32#7) →
    ∃ t, exec (.polyInit 32#7) s = .next t ∧
      t.polyR.toNat = le ((groupBytes s.din).take 16) &&& 0x0FFFFFFC0FFFFFFC0FFFFFFC0FFFFFFF ∧
      t.polyS.toNat = le (((groupBytes s.din).drop 16).take 16) ∧ t.acc = 0 ∧ groupBytes t.tag = zeros 16 ∧
      t.phase = .mac ∧
      t = { s with polyR := t.polyR, polyS := t.polyS, acc := t.acc, tag := t.tag, phase := t.phase, pending := none,
                   done := true }

/-- The chunk step on 1 to 16 bytes, by number, fully reduced (R143, R145); and POLY_UPDATE (R151): LEN div 16 full chunk steps, then one on the remaining bytes if there are any, which closes the
message (MAC_TAIL); LEN = 0 changes nothing. -/
def Obligations.PolyUpdateResult : Prop :=
  (∀ (r : BitVec 128) (acc : Nat) (c : List Byte), 1 ≤ c.length → c.length ≤ 16 →
    chunkStep r acc c = ((acc + le c + 2 ^ (8 * c.length)) * r.toNat) % (2 ^ 130 - 5) ∧
    chunkStep r acc c < 2 ^ 130 - 5) ∧
  ∀ (s : State) (len : BitVec 7), s.pending = some (.polyUpdate len) → len.toNat ≤ 64 →
    ∃ t, exec (.polyUpdate len) s = .next t ∧
      t.acc =
        (let q := len.toNat / 16
         let din := groupBytes s.din
         let full := (List.range q).foldl (fun acc i => chunkStep s.polyR acc (slice din (16 * i) (16 * i + 16))) s.acc
         if len.toNat % 16 ≠ 0 then chunkStep s.polyR full (slice din (16 * q) len.toNat) else full) ∧
      t.phase = (if len.toNat % 16 ≠ 0 then .macTail else s.phase) ∧
      t = { s with acc := t.acc, phase := t.phase, pending := none, done := true }

/-- POLY_FINAL (R152): TAG is the low 128 bits of ACC + S, little-endian, and the session ends. -/
def Obligations.PolyFinalResult : Prop :=
  ∀ s : State, s.pending = some (.polyFinal 0#7) →
    ∃ t, exec (.polyFinal 0#7) s = .next t ∧
      le (groupBytes t.tag) = (s.acc + s.polyS.toNat) % 2 ^ 128 ∧
      t = { s with tag := t.tag, polyR := 0#128, polyS := 0#128, acc := 0, phase := .idle, pending := none, done := true }

/-- AEAD_SEAL_INIT and AEAD_OPEN_INIT (R167, R168): the one-time key is the first half of the counter-0 block; COUNTER is 1,
the lengths, AUTH_OK, TAG and DOUT are cleared; RTAG, CWRAP and all else stay. -/
def Obligations.AeadInitResult : Prop :=
  ∀ s : State,
    (s.pending = some (.aeadSealInit 0#7) → ∃ t, exec (.aeadSealInit 0#7) s = .next t ∧ t.phase = .sealAad ∧
      t.polyR = otkR (deriveOneTimeKey (groupBytes s.key) (groupBytes s.nonce)) ∧
      t.polyS = otkS (deriveOneTimeKey (groupBytes s.key) (groupBytes s.nonce)) ∧
      groupBytes t.tag = zeros 16 ∧ groupBytes t.dout = zeros 64 ∧
      t = { s with polyR := t.polyR, polyS := t.polyS, acc := 0, counter := 1#32, aadlen := 0#64, ctlen := 0#64,
                   authOk := false, tag := t.tag, dout := t.dout, phase := t.phase, pending := none, done := true }) ∧
    (s.pending = some (.aeadOpenInit 0#7) → ∃ t, exec (.aeadOpenInit 0#7) s = .next t ∧ t.phase = .openAad ∧
      t.polyR = otkR (deriveOneTimeKey (groupBytes s.key) (groupBytes s.nonce)) ∧
      t.polyS = otkS (deriveOneTimeKey (groupBytes s.key) (groupBytes s.nonce)) ∧
      groupBytes t.tag = zeros 16 ∧ groupBytes t.dout = zeros 64 ∧
      t = { s with polyR := t.polyR, polyS := t.polyS, acc := 0, counter := 1#32, aadlen := 0#64, ctlen := 0#64,
                   authOk := false, tag := t.tag, dout := t.dout, phase := t.phase, pending := none, done := true })

/-- AEAD_AAD (R170): the chunks of the bytes with their zero padding are absorbed and AADLEN counts the bytes, modulo 2^64; a
length that is no multiple of 16 closes the AAD. -/
def Obligations.AeadAadResult : Prop :=
  ∀ (s : State) (len : BitVec 7), s.pending = some (.aeadAad len) → len.toNat ≤ 64 →
    ∃ t, exec (.aeadAad len) s = .next t ∧
      t.acc = absorb s.polyR s.acc (chunks 16 (s.dinBytes len.toNat ++ pad16 (s.dinBytes len.toNat))) ∧
      t.aadlen.toNat = (s.aadlen.toNat + len.toNat) % 2 ^ 64 ∧
      t.phase = (if len.toNat % 16 ≠ 0 then (if s.phase = .sealAad then .sealData else .openData) else s.phase) ∧
      t = { s with acc := t.acc, aadlen := t.aadlen, phase := t.phase, pending := none, done := true }

/-- AEAD_ENC (R172): the ciphertext of one chunk goes to DOUT and, zero-padded, into the authenticator; CTLEN counts it. -/
def Obligations.AeadEncResult : Prop :=
  ∀ (s : State) (len : BitVec 7), s.pending = some (.aeadEnc len) → len.toNat ≤ 64 →
    ∃ t ct, exec (.aeadEnc len) s = .next t ∧
      ct = encrypt (groupBytes s.key) (groupBytes s.nonce) s.counter (s.dinBytes len.toNat) ∧
      groupBytes t.dout = ct ++ zeros (64 - len.toNat) ∧
      t.acc = absorb s.polyR s.acc (chunks 16 (ct ++ pad16 ct)) ∧
      t.ctlen.toNat = (s.ctlen.toNat + len.toNat) % 2 ^ 64 ∧
      t.counter = (if len.toNat = 0 then s.counter else s.counter + 1#32) ∧
      (t.cwrap = true ↔ s.cwrap = true ∨ (len.toNat ≠ 0 ∧ s.counter = 0xFFFFFFFF#32)) ∧
      t.phase = (if len.toNat = 64 then .sealData else .sealTail) ∧
      t = { s with dout := t.dout, acc := t.acc, ctlen := t.ctlen, counter := t.counter, cwrap := t.cwrap,
                   phase := t.phase, pending := none, done := true }

/-- AEAD_TAG (R174, R166): one more chunk step on the two lengths, then the tag; the session ends and the lengths stay. -/
def Obligations.AeadTagResult : Prop :=
  ∀ s : State, s.pending = some (.aeadTag 0#7) →
    ∃ t, exec (.aeadTag 0#7) s = .next t ∧
      le (groupBytes t.tag) =
        (chunkStep s.polyR s.acc (leBytes 8 s.aadlen.toNat ++ leBytes 8 s.ctlen.toNat) + s.polyS.toNat) % 2 ^ 128 ∧
      t = { s with tag := t.tag, polyR := 0#128, polyS := 0#128, acc := 0, phase := .idle, pending := none, done := true }

/-- AEAD_ABSORB (R175): the bytes, zero-padded, are absorbed and counted in CTLEN; DOUT, COUNTER and all else stay. -/
def Obligations.AeadAbsorbResult : Prop :=
  ∀ (s : State) (len : BitVec 7), s.pending = some (.aeadAbsorb len) → len.toNat ≤ 64 →
    ∃ t, exec (.aeadAbsorb len) s = .next t ∧
      t.acc = absorb s.polyR s.acc (chunks 16 (s.dinBytes len.toNat ++ pad16 (s.dinBytes len.toNat))) ∧
      t.ctlen.toNat = (s.ctlen.toNat + len.toNat) % 2 ^ 64 ∧
      t.phase = (if len.toNat = 64 then .openData else .openTail) ∧
      t = { s with acc := t.acc, ctlen := t.ctlen, phase := t.phase, pending := none, done := true }

/-- AEAD_VERIFY (R176): with `expected` the tag after the length block, it matches exactly when RTAG holds `expected` and all
four words of RTAG have been written; either way the one-time key and RTAG are cleared and TAG, DOUT and the rest stay. -/
def Obligations.AeadVerifyResult : Prop :=
  ∀ s : State, s.pending = some (.aeadVerify 0#7) →
    ∃ t expected, exec (.aeadVerify 0#7) s = .next t ∧
      expected = leBytes 16 ((chunkStep s.polyR s.acc (leBytes 8 s.aadlen.toNat ++ leBytes 8 s.ctlen.toNat) +
        s.polyS.toNat) % 2 ^ 128) ∧
      (groupBytes s.rtag = expected ∧ (∀ j : Fin 4, s.rmask.getLsbD j = true) →
        t = { s with polyR := 0#128, polyS := 0#128, acc := 0, rtag := Vector.replicate 4 0#32, rmask := 0#4, authOk := true,
                     counter := 1#32, phase := .openDecrypt, pending := none, done := true }) ∧
      (¬(groupBytes s.rtag = expected ∧ (∀ j : Fin 4, s.rmask.getLsbD j = true)) →
        t = { s with polyR := 0#128, polyS := 0#128, acc := 0, rtag := Vector.replicate 4 0#32, rmask := 0#4, authOk := false,
                     phase := .idle, pending := none, err := true, errcode := .auth })

/-- AEAD_DECRYPT (R178): DOUT is one chunk decrypted at COUNTER, zero-filled; fewer than 64 bytes end the session. -/
def Obligations.AeadDecryptResult : Prop :=
  ∀ (s : State) (len : BitVec 7), s.pending = some (.aeadDecrypt len) → len.toNat ≤ 64 →
    ∃ t, exec (.aeadDecrypt len) s = .next t ∧
      groupBytes t.dout =
        encrypt (groupBytes s.key) (groupBytes s.nonce) s.counter (s.dinBytes len.toNat) ++ zeros (64 - len.toNat) ∧
      t.counter = (if len.toNat = 0 then s.counter else s.counter + 1#32) ∧
      (t.cwrap = true ↔ s.cwrap = true ∨ (len.toNat ≠ 0 ∧ s.counter = 0xFFFFFFFF#32)) ∧
      t.phase = (if len.toNat < 64 then .idle else s.phase) ∧
      t = { s with dout := t.dout, counter := t.counter, cwrap := t.cwrap, phase := t.phase, pending := none,
                   done := true }

/-- ABORT (R190): the session and its one-time key are gone, AUTH_OK is clear, and every data register is kept. -/
def Obligations.AbortResult : Prop :=
  ∀ s : State, s.pending = some (.abort 0#7) →
    exec (.abort 0#7) s = .next
      { s with polyR := 0#128, polyS := 0#128, acc := 0, authOk := false, phase := .idle, pending := none,
               done := true }

/-- ZEROIZE (R191): what is left is a soft reset's state, but for CTRL, ERR, ERRCODE and CWRAP, which are kept, and DONE,
which is set. -/
def Obligations.ZeroizeResult : Prop :=
  ∀ s : State, s.pending = some (.zeroize 0#7) →
    exec (.zeroize 0#7) s = .next
      { resetCore s with ie := s.ie, eie := s.eie, err := s.err, errcode := s.errcode, cwrap := s.cwrap, done := true }

/-- R180: the phase after each accepted command is the table's, and a rejected command changes no phase. -/
def Obligations.PhaseTransitionTable : Prop :=
  (∀ (s : State) (i : Instr), s.pending = some i → issuable i s = true →
    ∃ t, exec i s = .next t ∧ t.phase = nextPhase i t.authOk s.phase) ∧
  (∀ (s t : State) (i : Instr), s.pending = none → exec i s = .next t → t.phase = s.phase)

/-! ## The whole machine -/

/-- The invariant holds right after reset. -/
def Obligations.ResetStateIsSound : Prop := Inv State.reset

/-- Every step keeps the invariant, from every state that has it. -/
def Obligations.EveryStepKeepsTheInvariant : Prop :=
  ∀ s t : State, Inv s → step s = .next t → Inv t

/-- R164, R176: while the tag of an open has not matched, and no command is in flight, a read of DOUT returns 0: no plaintext
is exposed; and no step opens decryption but a verify that sets AUTH_OK. -/
def Obligations.NoPlaintextBeforeTheTagMatches : Prop :=
  (∀ (s : State) (j : Fin 16), Inv s → s.rstN = true → s.busy = false → s.phase.unverifiedOpen = true →
    step (s.facing (hostRd (.dout j))) = .next (answer (.read (Reg.dout j).offset 0#32 false) s)) ∧
  (∀ s t : State, step s = .next t → t.phase = .openDecrypt → s.phase ≠ .openDecrypt →
    ∃ len, s.pending = some (.aeadVerify len) ∧ t.authOk = true)

/-- R36, R43, R212: host accesses and changes of `rst_n` reveal nothing of KEY, R, S and ACC: from two states that differ in
those alone, the same input gives the same answers at the port and states that again differ in those alone. -/
def Obligations.AccessesRevealNoSecret : Prop :=
  ∀ (s s' t : State) (i : Input), sameButSecrets s s' → i ≠ .coreTurn → step (s.facing i) = .next t →
    ∃ t', step (s'.facing i) = .next t' ∧ sameButSecrets t t'

/-- R71: while a command stays in flight, no step changes anything it computes from. -/
def Obligations.InputsOfAPendingCommandStay : Prop :=
  ∀ (s t : State) (i : Instr), s.pending = some i → step s = .next t → t.pending = some i →
    t.key = s.key ∧ t.nonce = s.nonce ∧ t.counter = s.counter ∧ t.din = s.din ∧ t.rtag = s.rtag ∧ t.kmask = s.kmask ∧
    t.nmask = s.nmask ∧ t.rmask = s.rmask ∧ t.aadlen = s.aadlen ∧ t.ctlen = s.ctlen ∧ t.polyR = s.polyR ∧
    t.polyS = s.polyS ∧ t.acc = s.acc ∧ t.phase = s.phase

/-- Bounded form of R105. A command in flight, `rst_n` high and no reset among the inputs that wait: within as many steps as
inputs wait, the command, still in flight, meets the step that is `exec` of it, and that step completes it (R104). And whatever
waits, a reset too, no step stops the machine and none leaves a command in flight past the waiting inputs and one step more.
That the core has the turn when no input waits is the model's way to give R105's fairness (log entry 2). -/
def Obligations.AcceptedCommandsComplete : Prop :=
  (∀ (s : State) (i : Instr), s.rstN = true → s.pending = some i → (∀ x ∈ s.inputs, ¬x.resets) →
    ∃ k u t, k ≤ s.inputs.length ∧ Host.Core.run core k s = .next u ∧ u.rstN = true ∧ u.pending = some i ∧
      step u = exec i { u with inputs := u.inputs.tail } ∧ step u = .next t ∧ t.pending = none) ∧
  (∀ s : State, ∃ t, Host.Core.run core (s.inputs.length + 1) s = .next t ∧ t.inputs = [] ∧ t.pending = none)

/-! ## The functions of D0 -/

/-- R123, R125: the quarter round's and the block function's worked examples. -/
def Obligations.ChachaWorkedExamples : Prop :=
  (∀ x : ChaChaState, x[0] = 0x11111111#32 → x[1] = 0x01020304#32 → x[2] = 0x9B8D6F43#32 → x[3] = 0x01234567#32 →
    (quarterRound 0 1 2 3 x)[0] = 0xEA2A92F4#32 ∧ (quarterRound 0 1 2 3 x)[1] = 0xCB1CF8CE#32 ∧
    (quarterRound 0 1 2 3 x)[2] = 0x4581472E#32 ∧ (quarterRound 0 1 2 3 x)[3] = 0x5881C4BB#32) ∧
  (block ((List.range 32).map fun j => BitVec.ofNat 8 j) [0, 0, 0, 9, 0, 0, 0, 0x4a, 0, 0, 0, 0] 1).take 8 =
    [0x10, 0xf1, 0xe7, 0xe4, 0xd1, 0x3b, 0x59, 0x15]

/-- R127: `encrypt` is its own inverse, for data of any length. -/
def Obligations.EncryptIsSelfInverse : Prop :=
  ∀ (k n : List Byte) (c : Word) (d : List Byte), encrypt k n c (encrypt k n c d) = d

/-- R161: `pad16(x)` is `(16 - len(x) mod 16) mod 16` zero bytes, the fewest that bring `x` to a multiple of 16. -/
def Obligations.PaddingReachesAMultipleOf16 : Prop :=
  ∀ x : List Byte, pad16 x = List.replicate ((16 - x.length % 16) % 16) 0#8 ∧ (x ++ pad16 x).length % 16 = 0 ∧
    (x.length % 16 = 0 → pad16 x = []) ∧ (pad16 x).length < 16

/-- R141: clamping is the mask, which forces to zero the top 4 bits of bytes 3, 7, 11, 15 and the bottom 2 bits of bytes 4,
8, 12, and leaves every other bit. -/
def Obligations.ClampByBytes : Prop :=
  (∀ v : BitVec 128, clamp v = v &&& 0x0FFFFFFC0FFFFFFC0FFFFFFC0FFFFFFF#128) ∧
  ∀ (v : BitVec 128) (i : Nat) (b : Nat), i < 16 → b < 8 →
    (clamp v).getLsbD (8 * i + b) =
      if (i = 3 ∨ i = 7 ∨ i = 11 ∨ i = 15) ∧ 4 ≤ b then false
      else if (i = 4 ∨ i = 8 ∨ i = 12) ∧ b < 2 then false
      else v.getLsbD (8 * i + b)

/-- R146: an empty message, or any message under a key whose clamped r is 0, has the tag S; the all-zero key gives the
all-zero tag; the all-ones key's R is the clamp mask; the carry of ACC + S out of bit 127 is discarded. Then two worked
examples of spec/95_test_vectors.md: V-PL-1, and V-PL-6, which a partially reduced ACC would miss. -/
def Obligations.PolyCornerCases : Prop :=
  (∀ otk : List Byte, otk.length = 32 → poly1305 otk [] = slice otk 16 32) ∧
  (∀ otk m : List Byte, otk.length = 32 → otkR otk = 0#128 → poly1305 otk m = slice otk 16 32) ∧
  (∀ m : List Byte, poly1305 (zeros 32) m = zeros 16) ∧
  otkR (List.replicate 32 0xFF#8) = 0x0FFFFFFC0FFFFFFC0FFFFFFC0FFFFFFF#128 ∧
  (∀ (acc : Nat) (sv : BitVec 128), le (tagBytes acc sv) = (acc + sv.toNat) % 2 ^ 128) ∧
  poly1305
      [0x85, 0xd6, 0xbe, 0x78, 0x57, 0x55, 0x6d, 0x33, 0x7f, 0x44, 0x52, 0xfe, 0x42, 0xd5, 0x06, 0xa8,
       0x01, 0x03, 0x80, 0x8a, 0xfb, 0x0d, 0xb2, 0xfd, 0x4a, 0xbf, 0xf6, 0xaf, 0x41, 0x49, 0xf5, 0x1b]
      [0x43, 0x72, 0x79, 0x70, 0x74, 0x6f, 0x67, 0x72, 0x61, 0x70, 0x68, 0x69, 0x63, 0x20, 0x46, 0x6f, 0x72,
       0x75, 0x6d, 0x20, 0x52, 0x65, 0x73, 0x65, 0x61, 0x72, 0x63, 0x68, 0x20, 0x47, 0x72, 0x6f, 0x75, 0x70] =
    [0xa8, 0x06, 0x1d, 0xc1, 0x30, 0x51, 0x36, 0xc6, 0xc2, 0x2b, 0x8b, 0xaf, 0x0c, 0x01, 0x27, 0xa9] ∧
  poly1305 ([0x01] ++ zeros 31)
      (List.replicate 16 0xff#8 ++ ([0xf0] ++ List.replicate 15 0xff#8) ++ ([0x11] ++ zeros 15)) = [0x05] ++ zeros 15

/-- R165: `AbsorbPadded(B)` is what R144's chunking does on `B || pad16(B)`, and nothing for the empty string. -/
def Obligations.AbsorbPaddedIsThePaddedMessage : Prop :=
  (∀ (r : BitVec 128) (acc : Nat) (B : List Byte),
    absorbPadded r acc B = absorb r acc (chunks 16 (B ++ pad16 B))) ∧
  (∀ (r : BitVec 128) (acc : Nat), absorbPadded r acc [] = acc)

/-! ## The host sequences compute D0's functions

Each holds for every number of polls in each wait. That a wait's polls see the core before and after one turn is the model's
form of R88's loop beside R105 (log entry 2). -/

/-- R128: data of any length, chunk by chunk through CHACHA_XOR, reads back as `encrypt`, and COUNTER has moved on by the
number of chunks. The waits are the model's (log entry 2). -/
def Obligations.ChunkSequenceIsEncrypt : Prop :=
  ∀ (s : State) (polls : Nat → Nat) (c : Word) (d : List Byte), s.atRest → s.keyed →
    ∃ t, runHost (.access (hostWr .counter c) :: feedRead polls .chachaXor (chunks 64 d)) s = .next t ∧
      doutRead (chunks 64 d) s t = encrypt (groupBytes s.key) (groupBytes s.nonce) c d ∧
      t.counter = c + BitVec.ofNat 32 ((d.length + 63) / 64) ∧ t.err = s.err ∧ t.errcode = s.errcode

/-- R148: a message streamed in parts (each but the last a multiple of 16 bytes) has the tag `poly1305` of the whole. The waits
are the model's (log entry 2). -/
def Obligations.PartSequenceIsPoly1305 : Prop :=
  ∀ (s : State) (first last : Nat) (polls : Nat → Nat) (otk : List Byte) (ms : List (List Byte)),
    s.atRest → otk.length = 32 → chunkParts ms →
    let program := accesses (lddin otk) ++ hostRun first (.polyInit 32#7) ++ feed polls .polyUpdate ms ++
      hostRun last (.polyFinal 0#7) ++ accesses rdtag
    ∃ t, runHost program s = .next t ∧ tagRead s t = poly1305 otk ms.flatten ∧ t.phase = .idle ∧ t.err = s.err ∧
      t.errcode = s.errcode

/-- R181: the seal sequence reads back the ciphertext and the tag of `seal(KEY, NONCE, p, a)`, with no error. The waits are the
model's (log entry 2). -/
def Obligations.SealSequenceIsSeal : Prop :=
  ∀ (s : State) (first last : Nat) (pollsA pollsP : Nat → Nat) (as ps : List (List Byte)),
    s.atRest → s.keyed → chunkParts as → blockParts ps →
    let program := hostRun first (.aeadSealInit 0#7) ++ feed pollsA .aeadAad as ++ feedRead pollsP .aeadEnc ps ++
      hostRun last (.aeadTag 0#7) ++ accesses rdtag
    ∃ t, runHost program s = .next t ∧
      (doutRead ps s t, tagRead s t) = aeadSeal (groupBytes s.key) (groupBytes s.nonce) ps.flatten as.flatten ∧
      t.phase = .idle ∧ t.err = s.err ∧ t.errcode = s.errcode

/-- R182: the open sequence up to its verify completes without error exactly when `open(KEY, NONCE, ct || tag, a)` succeeds and
with AUTH exactly when it fails, DOUT being zero then (R176); after a success the decrypt pass reads back what `open` returns.
The waits are the model's (log entry 2). -/
def Obligations.OpenSequenceIsOpen : Prop :=
  ∀ (s : State) (first last : Nat) (pollsA pollsC pollsD : Nat → Nat) (as cs : List (List Byte)) (tag : List Byte),
    s.atRest → s.keyed → chunkParts as → blockParts cs → tag.length = 16 →
    let program := accesses (ldrtag tag) ++ hostRun first (.aeadOpenInit 0#7) ++ feed pollsA .aeadAad as ++
      feed pollsC .aeadAbsorb cs ++ hostRun last (.aeadVerify 0#7)
    ∃ t, runHost program s = .next t ∧ groupBytes t.dout = zeros 64 ∧
      match aeadOpen (groupBytes s.key) (groupBytes s.nonce) (cs.flatten ++ tag) as.flatten with
      | none => t.err = true ∧ t.errcode = .auth ∧ t.phase = .idle ∧ t.authOk = false
      | some p => t.err = s.err ∧ t.errcode = s.errcode ∧ t.done = true ∧ t.authOk = true ∧ t.phase = .openDecrypt ∧
          ∃ u, runHost (feedRead pollsD .aeadDecrypt cs) t = .next u ∧ doutRead cs t u = p ∧ u.err = s.err ∧
            u.errcode = s.errcode
end

