-- ==== Sys2Proof/Laws/Bytes.lean ====
section
/-! SUPPORT. Byte strings: lengths, the little-endian round trips, register groups as byte strings, and chunking. -/

namespace Sys2Proof.Machine

@[simp] theorem length_zeros (n : Nat) : (zeros n).length = n := by simp [zeros]

@[simp] theorem length_leBytes (n v : Nat) : (leBytes n v).length = n := by
  induction n generalizing v with
  | zero => rfl
  | succ n ih => simp [leBytes, ih]

theorem length_slice (B : List Byte) (a b : Nat) : (slice B a b).length = min b B.length - a := by
  simp [slice]

@[simp] theorem length_xorBytes (A B : List Byte) : (xorBytes A B).length = min A.length B.length := by
  simp [xorBytes]

theorem le_lt (B : List Byte) : le B < 256 ^ B.length := by
  induction B with
  | nil => simp [le]
  | cons b B ih =>
    have hb := b.isLt
    simp only [le, List.length_cons, Nat.pow_succ]
    omega

theorem le_append (A B : List Byte) : le (A ++ B) = le A + 256 ^ A.length * le B := by
  induction A with
  | nil => simp [le]
  | cons a A ih =>
    simp only [List.cons_append, le, ih, List.length_cons, Nat.pow_succ]
    ring

@[simp] theorem le_zeros (n : Nat) : le (zeros n) = 0 := by
  induction n with
  | zero => rfl
  | succ n ih =>
    show (0#8 : Byte).toNat + 256 * le (zeros n) = 0
    rw [ih]
    rfl

/-- Reading back the little-endian string of a value gives the value modulo 2^(8n) (R13). -/
theorem le_leBytes (n v : Nat) : le (leBytes n v) = v % 256 ^ n := by
  induction n generalizing v with
  | zero => simp [leBytes, le, Nat.mod_one]
  | succ n ih =>
    have h : v % 256 ^ (n + 1) = v % 256 + 256 * (v / 256 % 256 ^ n) := by
      rw [Nat.pow_succ', Nat.mod_mul]
    simp [leBytes, le, ih, h]

/-- The little-endian string of the value of `B` is `B` (R13). -/
theorem leBytes_le (B : List Byte) : leBytes B.length (le B) = B := by
  induction B with
  | nil => rfl
  | cons b B ih =>
    have hb := b.isLt
    have h1 : BitVec.ofNat 8 (b.toNat + 256 * le B) = b := by
      apply BitVec.eq_of_toNat_eq
      simp
      omega
    have h2 : (b.toNat + 256 * le B) / 256 = le B := by omega
    simp [leBytes, le, h1, h2, ih]

theorem leBytes_append (m n v : Nat) : leBytes (m + n) v = leBytes m v ++ leBytes n (v / 256 ^ m) := by
  induction m generalizing v with
  | zero => simp [leBytes]
  | succ m ih =>
    rw [Nat.succ_add_eq_add_succ, Nat.add_succ]
    simp only [leBytes, ih, List.cons_append]
    rw [Nat.div_div_eq_div_mul, ← Nat.pow_succ']

theorem leBytes_mod (n v : Nat) : leBytes n (v % 256 ^ n) = leBytes n v := by
  have h := leBytes_le (leBytes n v)
  rwa [length_leBytes, le_leBytes] at h

/-- Two byte strings of one length with one value are equal. -/
theorem eq_of_le_eq {A B : List Byte} (hl : A.length = B.length) (h : le A = le B) : A = B := by
  rw [← leBytes_le A, ← leBytes_le B, hl, h]

theorem slice_eq_take (B : List Byte) (n : Nat) : slice B 0 n = B.take n := by simp [slice]

theorem slice_all (B : List Byte) : slice B 0 B.length = B := by simp [slice]

/-! Register groups. -/

theorem length_flatMap_leBytes (l : List Word) : (l.flatMap fun w => leBytes 4 w.toNat).length = 4 * l.length := by
  induction l with
  | nil => rfl
  | cons w l ih => simp [ih]; omega

@[simp] theorem length_groupBytes {n : Nat} (v : Vector Word n) : (groupBytes v).length = 4 * n := by
  rw [groupBytes, bytesOf, length_flatMap_leBytes, Vector.length_toList]

theorem slice_flatMap_leBytes (l : List Word) (j : Nat) (hj : j < l.length) :
    slice (l.flatMap fun w => leBytes 4 w.toNat) (4 * j) (4 * j + 4) = leBytes 4 (l[j]).toNat := by
  induction l generalizing j with
  | nil => simp at hj
  | cons w l ih =>
    cases j with
    | zero =>
      have h : (leBytes 4 w.toNat).length = 4 := by simp
      simp only [List.flatMap_cons, Nat.mul_zero, Nat.zero_add, slice, List.drop_zero, List.getElem_cons_zero]
      exact List.take_left' h
    | succ j =>
      have h : (leBytes 4 w.toNat).length = 4 := by simp
      have hj' : j < l.length := by simpa using hj
      simp only [List.getElem_cons_succ]
      rw [← ih j hj']
      simp only [List.flatMap_cons, slice]
      rw [show 4 * (j + 1) + 4 = 4 + (4 * j + 4) by omega, show 4 * (j + 1) = 4 + 4 * j by omega, List.take_append,
        List.drop_append, List.take_of_length_le (by omega), List.drop_of_length_le (by omega)]
      simp [h]

/-- Word `j` of a group's byte string is the group's register `j` (R64). -/
theorem le32_groupBytes {n : Nat} (v : Vector Word n) (j : Fin n) : le32 (groupBytes v) j = v[j] := by
  have hj : j.val < v.toList.length := by simp
  simp only [le32, groupBytes, bytesOf]
  rw [slice_flatMap_leBytes _ _ hj, le_leBytes]
  apply BitVec.eq_of_toNat_eq
  have := (v[j.val]).isLt
  simp
  omega

/-- Loading a group's byte string gives the group back. -/
@[simp] theorem groupOfBytes_groupBytes {n : Nat} (v : Vector Word n) : groupOfBytes n (groupBytes v) = v := by
  apply Vector.ext
  intro i hi
  simpa [groupOfBytes] using le32_groupBytes v ⟨i, hi⟩

theorem leBytes_le32 (B : List Byte) (j : Nat) (h : 4 * j + 4 ≤ B.length) :
    leBytes 4 (le32 B j).toNat = slice B (4 * j) (4 * j + 4) := by
  have hl : (slice B (4 * j) (4 * j + 4)).length = 4 := by rw [length_slice]; omega
  have hlt := le_lt (slice B (4 * j) (4 * j + 4))
  rw [hl] at hlt
  simp only [le32, BitVec.toNat_ofNat]
  rw [Nat.mod_eq_of_lt (by simpa using hlt)]
  have := leBytes_le (slice B (4 * j) (4 * j + 4))
  rwa [hl] at this

theorem flatten_slices (B : List Byte) (k n : Nat) (h : B.length = k * n) :
    ((List.range n).flatMap fun j => slice B (k * j) (k * j + k)) = B := by
  induction n generalizing B with
  | zero => simp [List.length_eq_zero_iff.mp (by simpa using h)]
  | succ n ih =>
    have hd : (B.drop k).length = k * n := by simp [h, Nat.mul_succ]
    rw [List.range_succ_eq_map, List.flatMap_cons, List.flatMap_map]
    have := ih (B.drop k) hd
    have hs : ∀ j, slice B (k * (j + 1)) (k * (j + 1) + k) = slice (B.drop k) (k * j) (k * j + k) := by
      intro j
      simp only [slice, List.take_drop, List.drop_drop, Nat.mul_succ]
      congr 1
      · omega
      · congr 1; omega
    simp only [Nat.succ_eq_add_one, hs, this]
    simp [slice]

/-- A register group loaded from a byte string of its length holds that string (R64). -/
theorem groupBytes_groupOfBytes (n : Nat) (B : List Byte) (h : B.length = 4 * n) :
    groupBytes (groupOfBytes n B) = B := by
  have hl : (groupOfBytes n B).toList = (List.range n).map fun j => le32 B j := by
    apply List.ext_getElem <;> simp [groupOfBytes]
  rw [groupBytes, bytesOf, hl, List.flatMap_map]
  have : ((List.range n).flatMap fun j => leBytes 4 (le32 B j).toNat) =
      (List.range n).flatMap fun j => slice B (4 * j) (4 * j + 4) := by
    apply List.flatMap_congr
    intro j hj
    have := List.mem_range.mp hj
    exact leBytes_le32 B j (by omega)
  rw [this, flatten_slices B 4 n h]

/-! Exclusive-or. -/

/-- Exclusive-or with one string twice gives the data back (R127). -/
theorem xorBytes_xorBytes (A B : List Byte) (h : A.length ≤ B.length) : xorBytes (xorBytes A B) B = A := by
  induction A generalizing B with
  | nil => simp [xorBytes]
  | cons a A ih =>
    cases B with
    | nil => simp at h
    | cons b B =>
      have := ih B (by simpa using h)
      simp only [xorBytes, List.zipWith_cons_cons] at this ⊢
      rw [this, BitVec.xor_assoc, BitVec.xor_self, BitVec.xor_zero]

/-! Chunking. -/

theorem length_chunks (n : Nat) (B : List Byte) : (chunks n B).length = (B.length + n - 1) / n := by
  simp [chunks]

@[simp] theorem chunks_nil (n : Nat) : chunks n [] = [] := by
  have : (n - 1) / n = 0 := by
    rcases Nat.eq_zero_or_pos n with h | h
    · simp [h]
    · exact Nat.div_eq_of_lt (by omega)
  simp [chunks, this]

/-- A string of 1 to n bytes is one chunk. -/
theorem chunks_single (n : Nat) (B : List Byte) (h0 : 0 < B.length) (h : B.length ≤ n) : chunks n B = [B] := by
  have : (B.length + n - 1) / n = 1 := by
    apply Nat.div_eq_of_lt_le <;> omega
  simp [chunks, this, slice, Nat.min_eq_right h]

/-- Cutting at a multiple of the chunk size cuts the list of chunks (what R148, R171 and R173 rest on). -/
theorem chunks_append (n : Nat) (hn : 0 < n) (A B : List Byte) (h : A.length % n = 0) :
    chunks n (A ++ B) = chunks n A ++ chunks n B := by
  obtain ⟨q, hq⟩ : ∃ q, A.length = n * q := ⟨A.length / n, by
    have := Nat.div_add_mod A.length n; omega⟩
  have hA : (A.length + n - 1) / n = q := by
    rw [hq, Nat.add_sub_assoc hn, Nat.mul_add_div hn, Nat.div_eq_of_lt (by omega), Nat.add_zero]
  have hAB : ((A ++ B).length + n - 1) / n = q + (B.length + n - 1) / n := by
    rw [List.length_append, hq, Nat.add_assoc, Nat.add_sub_assoc (by omega), Nat.mul_add_div hn]
  simp only [chunks, hA, hAB, List.range_add, List.map_append, List.map_map]
  congr 1
  · apply List.map_congr_left
    intro i hi
    have hi' := List.mem_range.mp hi
    have hle : n * i + n ≤ n * q := by
      rw [← Nat.mul_succ]; exact Nat.mul_le_mul_left n hi'
    simp only [slice, List.length_append]
    rw [Nat.min_eq_left (by omega), Nat.min_eq_left (by omega), List.take_append_of_le_length (by omega)]
  · apply List.map_congr_left
    intro i _
    simp only [Function.comp_apply, slice, List.length_append, hq, Nat.mul_add]
    rw [show min (n * q + n * i + n) (n * q + B.length) = A.length + min (n * i + n) B.length by omega,
      List.take_length_add_append, ← hq, List.drop_length_add_append]

/-- The chunks of a string are the string, cut. -/
theorem flatten_chunks (n : Nat) (hn : 0 < n) (B : List Byte) : (chunks n B).flatten = B := by
  by_cases hB : B.length ≤ n
  · by_cases h0 : B.length = 0
    · simp [List.length_eq_zero_iff.mp h0]
    · simp [chunks_single n B (by omega) hB]
  · have h1 : (B.take n).length = n := by simp; omega
    have h2 := flatten_chunks n hn (B.drop n)
    have h3 := chunks_append n hn (B.take n) (B.drop n) (by simp [h1])
    rw [List.take_append_drop] at h3
    rw [h3, List.flatten_append, h2, chunks_single n (B.take n) (by omega) (by omega)]
    simp
termination_by B.length
decreasing_by simp; omega

end Sys2Proof.Machine
end

