-- ==== Sys2Proof/Laws/State.lean ====
section
/-! SUPPORT. What each named update of State leaves in each field: one lemma a field, true by rfl, so that no proof unfolds a
record update; then what the computed flags become. -/

namespace Sys2Proof.Machine

variable (s : State)

section raiseError
variable (code : ErrCode)

@[simp] theorem raiseError_inputs : (raiseError code s).inputs = s.inputs := rfl
@[simp] theorem raiseError_transfers : (raiseError code s).transfers = s.transfers := rfl
@[simp] theorem raiseError_draws : (raiseError code s).draws = s.draws := rfl
@[simp] theorem raiseError_rstN : (raiseError code s).rstN = s.rstN := rfl
@[simp] theorem raiseError_ie : (raiseError code s).ie = s.ie := rfl
@[simp] theorem raiseError_eie : (raiseError code s).eie = s.eie := rfl
@[simp] theorem raiseError_done : (raiseError code s).done = s.done := rfl
@[simp] theorem raiseError_err : (raiseError code s).err = true := rfl
@[simp] theorem raiseError_authOk : (raiseError code s).authOk = s.authOk := rfl
@[simp] theorem raiseError_cwrap : (raiseError code s).cwrap = s.cwrap := rfl
@[simp] theorem raiseError_errcode : (raiseError code s).errcode = code := rfl
@[simp] theorem raiseError_phase : (raiseError code s).phase = s.phase := rfl
@[simp] theorem raiseError_counter : (raiseError code s).counter = s.counter := rfl
@[simp] theorem raiseError_aadlen : (raiseError code s).aadlen = s.aadlen := rfl
@[simp] theorem raiseError_ctlen : (raiseError code s).ctlen = s.ctlen := rfl
@[simp] theorem raiseError_key : (raiseError code s).key = s.key := rfl
@[simp] theorem raiseError_nonce : (raiseError code s).nonce = s.nonce := rfl
@[simp] theorem raiseError_tag : (raiseError code s).tag = s.tag := rfl
@[simp] theorem raiseError_rtag : (raiseError code s).rtag = s.rtag := rfl
@[simp] theorem raiseError_din : (raiseError code s).din = s.din := rfl
@[simp] theorem raiseError_dout : (raiseError code s).dout = s.dout := rfl
@[simp] theorem raiseError_kmask : (raiseError code s).kmask = s.kmask := rfl
@[simp] theorem raiseError_nmask : (raiseError code s).nmask = s.nmask := rfl
@[simp] theorem raiseError_rmask : (raiseError code s).rmask = s.rmask := rfl
@[simp] theorem raiseError_polyR : (raiseError code s).polyR = s.polyR := rfl
@[simp] theorem raiseError_polyS : (raiseError code s).polyS = s.polyS := rfl
@[simp] theorem raiseError_acc : (raiseError code s).acc = s.acc := rfl
@[simp] theorem raiseError_pending : (raiseError code s).pending = s.pending := rfl
end raiseError

section clearError

@[simp] theorem clearError_inputs : (clearError s).inputs = s.inputs := rfl
@[simp] theorem clearError_transfers : (clearError s).transfers = s.transfers := rfl
@[simp] theorem clearError_draws : (clearError s).draws = s.draws := rfl
@[simp] theorem clearError_rstN : (clearError s).rstN = s.rstN := rfl
@[simp] theorem clearError_ie : (clearError s).ie = s.ie := rfl
@[simp] theorem clearError_eie : (clearError s).eie = s.eie := rfl
@[simp] theorem clearError_done : (clearError s).done = s.done := rfl
@[simp] theorem clearError_err : (clearError s).err = false := rfl
@[simp] theorem clearError_authOk : (clearError s).authOk = s.authOk := rfl
@[simp] theorem clearError_cwrap : (clearError s).cwrap = s.cwrap := rfl
@[simp] theorem clearError_errcode : (clearError s).errcode = .noError := rfl
@[simp] theorem clearError_phase : (clearError s).phase = s.phase := rfl
@[simp] theorem clearError_counter : (clearError s).counter = s.counter := rfl
@[simp] theorem clearError_aadlen : (clearError s).aadlen = s.aadlen := rfl
@[simp] theorem clearError_ctlen : (clearError s).ctlen = s.ctlen := rfl
@[simp] theorem clearError_key : (clearError s).key = s.key := rfl
@[simp] theorem clearError_nonce : (clearError s).nonce = s.nonce := rfl
@[simp] theorem clearError_tag : (clearError s).tag = s.tag := rfl
@[simp] theorem clearError_rtag : (clearError s).rtag = s.rtag := rfl
@[simp] theorem clearError_din : (clearError s).din = s.din := rfl
@[simp] theorem clearError_dout : (clearError s).dout = s.dout := rfl
@[simp] theorem clearError_kmask : (clearError s).kmask = s.kmask := rfl
@[simp] theorem clearError_nmask : (clearError s).nmask = s.nmask := rfl
@[simp] theorem clearError_rmask : (clearError s).rmask = s.rmask := rfl
@[simp] theorem clearError_polyR : (clearError s).polyR = s.polyR := rfl
@[simp] theorem clearError_polyS : (clearError s).polyS = s.polyS := rfl
@[simp] theorem clearError_acc : (clearError s).acc = s.acc := rfl
@[simp] theorem clearError_pending : (clearError s).pending = s.pending := rfl
end clearError

section answer
variable (t : Transfer)

@[simp] theorem answer_inputs : (answer t s).inputs = s.inputs := rfl
@[simp] theorem answer_transfers : (answer t s).transfers = s.transfers ++ [t] := rfl
@[simp] theorem answer_draws : (answer t s).draws = s.draws := rfl
@[simp] theorem answer_rstN : (answer t s).rstN = s.rstN := rfl
@[simp] theorem answer_ie : (answer t s).ie = s.ie := rfl
@[simp] theorem answer_eie : (answer t s).eie = s.eie := rfl
@[simp] theorem answer_done : (answer t s).done = s.done := rfl
@[simp] theorem answer_err : (answer t s).err = s.err := rfl
@[simp] theorem answer_authOk : (answer t s).authOk = s.authOk := rfl
@[simp] theorem answer_cwrap : (answer t s).cwrap = s.cwrap := rfl
@[simp] theorem answer_errcode : (answer t s).errcode = s.errcode := rfl
@[simp] theorem answer_phase : (answer t s).phase = s.phase := rfl
@[simp] theorem answer_counter : (answer t s).counter = s.counter := rfl
@[simp] theorem answer_aadlen : (answer t s).aadlen = s.aadlen := rfl
@[simp] theorem answer_ctlen : (answer t s).ctlen = s.ctlen := rfl
@[simp] theorem answer_key : (answer t s).key = s.key := rfl
@[simp] theorem answer_nonce : (answer t s).nonce = s.nonce := rfl
@[simp] theorem answer_tag : (answer t s).tag = s.tag := rfl
@[simp] theorem answer_rtag : (answer t s).rtag = s.rtag := rfl
@[simp] theorem answer_din : (answer t s).din = s.din := rfl
@[simp] theorem answer_dout : (answer t s).dout = s.dout := rfl
@[simp] theorem answer_kmask : (answer t s).kmask = s.kmask := rfl
@[simp] theorem answer_nmask : (answer t s).nmask = s.nmask := rfl
@[simp] theorem answer_rmask : (answer t s).rmask = s.rmask := rfl
@[simp] theorem answer_polyR : (answer t s).polyR = s.polyR := rfl
@[simp] theorem answer_polyS : (answer t s).polyS = s.polyS := rfl
@[simp] theorem answer_acc : (answer t s).acc = s.acc := rfl
@[simp] theorem answer_pending : (answer t s).pending = s.pending := rfl
end answer

section accept
variable (i : Instr)

@[simp] theorem accept_inputs : (accept i s).inputs = s.inputs := rfl
@[simp] theorem accept_transfers : (accept i s).transfers = s.transfers := rfl
@[simp] theorem accept_draws : (accept i s).draws = s.draws := rfl
@[simp] theorem accept_rstN : (accept i s).rstN = s.rstN := rfl
@[simp] theorem accept_ie : (accept i s).ie = s.ie := rfl
@[simp] theorem accept_eie : (accept i s).eie = s.eie := rfl
@[simp] theorem accept_done : (accept i s).done = s.done := rfl
@[simp] theorem accept_err : (accept i s).err = s.err := rfl
@[simp] theorem accept_authOk : (accept i s).authOk = s.authOk := rfl
@[simp] theorem accept_cwrap : (accept i s).cwrap = s.cwrap := rfl
@[simp] theorem accept_errcode : (accept i s).errcode = s.errcode := rfl
@[simp] theorem accept_phase : (accept i s).phase = s.phase := rfl
@[simp] theorem accept_counter : (accept i s).counter = s.counter := rfl
@[simp] theorem accept_aadlen : (accept i s).aadlen = s.aadlen := rfl
@[simp] theorem accept_ctlen : (accept i s).ctlen = s.ctlen := rfl
@[simp] theorem accept_key : (accept i s).key = s.key := rfl
@[simp] theorem accept_nonce : (accept i s).nonce = s.nonce := rfl
@[simp] theorem accept_tag : (accept i s).tag = s.tag := rfl
@[simp] theorem accept_rtag : (accept i s).rtag = s.rtag := rfl
@[simp] theorem accept_din : (accept i s).din = s.din := rfl
@[simp] theorem accept_dout : (accept i s).dout = s.dout := rfl
@[simp] theorem accept_kmask : (accept i s).kmask = s.kmask := rfl
@[simp] theorem accept_nmask : (accept i s).nmask = s.nmask := rfl
@[simp] theorem accept_rmask : (accept i s).rmask = s.rmask := rfl
@[simp] theorem accept_polyR : (accept i s).polyR = s.polyR := rfl
@[simp] theorem accept_polyS : (accept i s).polyS = s.polyS := rfl
@[simp] theorem accept_acc : (accept i s).acc = s.acc := rfl
@[simp] theorem accept_pending : (accept i s).pending = some i := rfl
end accept

section counterStep

@[simp] theorem counterStep_inputs : (counterStep s).inputs = s.inputs := rfl
@[simp] theorem counterStep_transfers : (counterStep s).transfers = s.transfers := rfl
@[simp] theorem counterStep_draws : (counterStep s).draws = s.draws := rfl
@[simp] theorem counterStep_rstN : (counterStep s).rstN = s.rstN := rfl
@[simp] theorem counterStep_ie : (counterStep s).ie = s.ie := rfl
@[simp] theorem counterStep_eie : (counterStep s).eie = s.eie := rfl
@[simp] theorem counterStep_done : (counterStep s).done = s.done := rfl
@[simp] theorem counterStep_err : (counterStep s).err = s.err := rfl
@[simp] theorem counterStep_authOk : (counterStep s).authOk = s.authOk := rfl
@[simp] theorem counterStep_cwrap : (counterStep s).cwrap = (s.cwrap || s.counter == 0xFFFFFFFF#32) := rfl
@[simp] theorem counterStep_errcode : (counterStep s).errcode = s.errcode := rfl
@[simp] theorem counterStep_phase : (counterStep s).phase = s.phase := rfl
@[simp] theorem counterStep_counter : (counterStep s).counter = s.counter + 1#32 := rfl
@[simp] theorem counterStep_aadlen : (counterStep s).aadlen = s.aadlen := rfl
@[simp] theorem counterStep_ctlen : (counterStep s).ctlen = s.ctlen := rfl
@[simp] theorem counterStep_key : (counterStep s).key = s.key := rfl
@[simp] theorem counterStep_nonce : (counterStep s).nonce = s.nonce := rfl
@[simp] theorem counterStep_tag : (counterStep s).tag = s.tag := rfl
@[simp] theorem counterStep_rtag : (counterStep s).rtag = s.rtag := rfl
@[simp] theorem counterStep_din : (counterStep s).din = s.din := rfl
@[simp] theorem counterStep_dout : (counterStep s).dout = s.dout := rfl
@[simp] theorem counterStep_kmask : (counterStep s).kmask = s.kmask := rfl
@[simp] theorem counterStep_nmask : (counterStep s).nmask = s.nmask := rfl
@[simp] theorem counterStep_rmask : (counterStep s).rmask = s.rmask := rfl
@[simp] theorem counterStep_polyR : (counterStep s).polyR = s.polyR := rfl
@[simp] theorem counterStep_polyS : (counterStep s).polyS = s.polyS := rfl
@[simp] theorem counterStep_acc : (counterStep s).acc = s.acc := rfl
@[simp] theorem counterStep_pending : (counterStep s).pending = s.pending := rfl
end counterStep

section resetCore

@[simp] theorem resetCore_inputs : (resetCore s).inputs = s.inputs := rfl
@[simp] theorem resetCore_transfers : (resetCore s).transfers = s.transfers := rfl
@[simp] theorem resetCore_draws : (resetCore s).draws = s.draws := rfl
@[simp] theorem resetCore_rstN : (resetCore s).rstN = s.rstN := rfl
@[simp] theorem resetCore_ie : (resetCore s).ie = false := rfl
@[simp] theorem resetCore_eie : (resetCore s).eie = false := rfl
@[simp] theorem resetCore_done : (resetCore s).done = false := rfl
@[simp] theorem resetCore_err : (resetCore s).err = false := rfl
@[simp] theorem resetCore_authOk : (resetCore s).authOk = false := rfl
@[simp] theorem resetCore_cwrap : (resetCore s).cwrap = false := rfl
@[simp] theorem resetCore_errcode : (resetCore s).errcode = .noError := rfl
@[simp] theorem resetCore_phase : (resetCore s).phase = .idle := rfl
@[simp] theorem resetCore_counter : (resetCore s).counter = 0#32 := rfl
@[simp] theorem resetCore_aadlen : (resetCore s).aadlen = 0#64 := rfl
@[simp] theorem resetCore_ctlen : (resetCore s).ctlen = 0#64 := rfl
@[simp] theorem resetCore_key : (resetCore s).key = Vector.replicate 8 0#32 := rfl
@[simp] theorem resetCore_nonce : (resetCore s).nonce = Vector.replicate 3 0#32 := rfl
@[simp] theorem resetCore_tag : (resetCore s).tag = Vector.replicate 4 0#32 := rfl
@[simp] theorem resetCore_rtag : (resetCore s).rtag = Vector.replicate 4 0#32 := rfl
@[simp] theorem resetCore_din : (resetCore s).din = Vector.replicate 16 0#32 := rfl
@[simp] theorem resetCore_dout : (resetCore s).dout = Vector.replicate 16 0#32 := rfl
@[simp] theorem resetCore_kmask : (resetCore s).kmask = 0#8 := rfl
@[simp] theorem resetCore_nmask : (resetCore s).nmask = 0#3 := rfl
@[simp] theorem resetCore_rmask : (resetCore s).rmask = 0#4 := rfl
@[simp] theorem resetCore_polyR : (resetCore s).polyR = 0#128 := rfl
@[simp] theorem resetCore_polyS : (resetCore s).polyS = 0#128 := rfl
@[simp] theorem resetCore_acc : (resetCore s).acc = 0 := rfl
@[simp] theorem resetCore_pending : (resetCore s).pending = none := rfl
end resetCore

/-- BUSY is exactly a command in flight (R44). -/
theorem busy_iff : s.busy = true ↔ ∃ i, s.pending = some i := by
  simp [State.busy, Option.isSome_iff_exists]

theorem busy_eq_false : s.busy = false ↔ s.pending = none := by
  simp [State.busy]

@[simp] theorem resetCore_idem : resetCore (resetCore s) = resetCore s := rfl

end Sys2Proof.Machine
end

