-- ==== Sys2Proof/Laws/Crypto.lean ====
section
/-! SUPPORT. The functions of D0 and the operands of the commands: lengths, bounds, what the output registers hold, and how
the whole-message functions split at a chunk boundary. -/

namespace Sys2Proof.Machine

/-! Operands. -/

theorem length_dinBytes (s : State) (len : Nat) : (s.dinBytes len).length = min len 64 := by
  simp [State.dinBytes, slice]

/-- DOUT holds the bytes, then zero bytes (R38). -/
theorem groupBytes_doutOf (B : List Byte) (h : B.length ≤ 64) : groupBytes (doutOf B) = B ++ zeros (64 - B.length) :=
  groupBytes_groupOfBytes 16 _ (by simp; omega)

/-- TAG holds the bytes (R40). -/
theorem groupBytes_tagOf (B : List Byte) (h : B.length = 16) : groupBytes (tagOf B) = B :=
  groupBytes_groupOfBytes 4 _ h

theorem doutOf_nil : doutOf [] = Vector.replicate 16 0#32 := by decide

theorem tagOf_zeros : tagOf (zeros 16) = Vector.replicate 4 0#32 := by decide

/-! ChaCha20. -/

@[simp] theorem length_block (k n : List Byte) (c : Word) : (block k n c).length = 64 := by simp [block]

@[simp] theorem length_keystream (s : State) (c : Word) : (s.keystream c).length = 64 := by simp [State.keystream]

theorem encrypt_nil (k n : List Byte) (c : Word) : encrypt k n c [] = [] := by simp [encrypt, encryptChunks]

/-- `encrypt` of 1 to 64 bytes is the exclusive-or with a prefix of one block (R126). -/
theorem encrypt_single (k n : List Byte) (c : Word) (d : List Byte) (h0 : 0 < d.length) (h : d.length ≤ 64) :
    encrypt k n c d = xorBytes d (slice (block k n c) 0 d.length) := by
  simp [encrypt, chunks_single 64 d h0 h, encryptChunks]

/-- `encrypt` of a whole chunk and the rest (R126). -/
theorem encrypt_cons (k n : List Byte) (c : Word) (C d : List Byte) (h : C.length = 64) :
    encrypt k n c (C ++ d) = encrypt k n c C ++ encrypt k n (c + 1#32) d := by
  simp only [encrypt, chunks_append 64 (by decide) C d (by simp [h]), chunks_single 64 C (by omega) (by omega),
    encryptChunks, List.append_nil, List.cons_append, List.nil_append]

theorem length_encryptChunks (k n : List Byte) (c : Word) (Cs : List (List Byte)) (h : ∀ C ∈ Cs, C.length ≤ 64) :
    (encryptChunks k n c Cs).length = Cs.flatten.length := by
  induction Cs generalizing c with
  | nil => rfl
  | cons C Cs ih =>
    have hC := h C (by simp)
    simp only [encryptChunks, List.length_append, List.flatten_cons, ih _ fun D hD => h D (by simp [hD]),
      length_xorBytes, length_slice, length_block]
    omega

theorem length_chunk (n : Nat) (B C : List Byte) (h : C ∈ chunks n B) : C.length ≤ n := by
  simp only [chunks, List.mem_map] at h
  obtain ⟨i, _, rfl⟩ := h
  rw [length_slice]
  omega

/-- `encrypt` keeps the length of its data. -/
@[simp] theorem length_encrypt (k n : List Byte) (c : Word) (d : List Byte) : (encrypt k n c d).length = d.length := by
  rw [encrypt, length_encryptChunks _ _ _ _ (length_chunk 64 d), flatten_chunks 64 (by decide)]

/-- What the streaming commands put in DOUT is `encrypt` of their data at COUNTER (R126, R133). -/
theorem streamOut_eq_encrypt (s : State) (len : Nat) (h : len ≤ 64) :
    s.streamOut len = encrypt (groupBytes s.key) (groupBytes s.nonce) s.counter (s.dinBytes len) := by
  have hl : (s.dinBytes len).length = len := by rw [length_dinBytes]; omega
  unfold State.streamOut
  split
  · rename_i h0
    rw [List.length_eq_zero_iff.mp (hl.trans h0), encrypt_nil]
  · rw [encrypt_single _ _ _ _ (by omega) (by omega), hl, State.keystream]

theorem length_streamOut (s : State) (len : Nat) (h : len ≤ 64) : (s.streamOut len).length = len := by
  rw [streamOut_eq_encrypt s len h, length_encrypt, length_dinBytes]
  omega

/-! Poly1305. -/

theorem chunkStep_lt (r : BitVec 128) (acc : Nat) (c : List Byte) : chunkStep r acc c < polyP :=
  Nat.mod_lt _ (by decide)

/-- Chunk steps keep ACC reduced (R145). -/
theorem absorb_lt (r : BitVec 128) (acc : Nat) (cs : List (List Byte)) (h : acc < polyP) : absorb r acc cs < polyP := by
  induction cs generalizing acc with
  | nil => exact h
  | cons c cs ih => exact ih _ (chunkStep_lt r acc c)

theorem absorb_append (r : BitVec 128) (acc : Nat) (cs ds : List (List Byte)) :
    absorb r acc (cs ++ ds) = absorb r (absorb r acc cs) ds := by
  simp [absorb]

@[simp] theorem length_tagBytes (acc : Nat) (sv : BitVec 128) : (tagBytes acc sv).length = 16 := by simp [tagBytes]

theorem clamp_clamp (v : BitVec 128) : clamp (clamp v) = clamp v := by
  simp [clamp, BitVec.and_assoc]

@[simp] theorem clamp_zero : clamp 0#128 = 0#128 := by decide

theorem clamp_otkR (otk : List Byte) : clamp (otkR otk) = otkR otk := clamp_clamp _

/-! The AEAD construction. -/

theorem length_pad16 (x : List Byte) : (pad16 x).length = (16 - x.length % 16) % 16 := by simp [pad16]

/-- Padding brings a string to a multiple of 16 (R161). -/
theorem length_append_pad16 (x : List Byte) : (x ++ pad16 x).length % 16 = 0 := by
  rw [List.length_append, length_pad16]
  omega

/-- `AbsorbPadded` absorbs the string with its padding (R165). -/
theorem absorbPadded_eq (r : BitVec 128) (acc : Nat) (B : List Byte) :
    absorbPadded r acc B = absorb r acc (chunks 16 (B ++ pad16 B)) := by
  suffices h : ∀ (n : Nat) (B : List Byte), B.length ≤ n → (chunks 16 B).map padChunk = chunks 16 (B ++ pad16 B) by
    rw [absorbPadded, h B.length B (Nat.le_refl _)]
  intro n
  induction n with
  | zero =>
    intro B hB
    obtain rfl : B = [] := List.length_eq_zero_iff.mp (by omega)
    simp [pad16, zeros]
  | succ n ih =>
    intro B hB
    by_cases h16 : B.length ≤ 16
    · by_cases h0 : B.length = 0
      · rw [List.length_eq_zero_iff.mp h0]
        simp [pad16, zeros]
      · have hp : (pad16 B).length = 16 - B.length := by
          rw [length_pad16]
          by_cases h : B.length = 16
          · simp [h]
          · rw [Nat.mod_eq_of_lt (a := B.length) (by omega), Nat.mod_eq_of_lt (by omega)]
        rw [chunks_single 16 B (by omega) h16, chunks_single 16 (B ++ pad16 B) (by simp; omega) (by simp; omega)]
        have hz : zeros (16 - B.length) = pad16 B := by
          rw [pad16, ← length_pad16, hp]
        simp [padChunk, hz]
    · have ht : (B.take 16).length = 16 := by simp; omega
      have hd : (B.drop 16).length = B.length - 16 := by simp
      have hp : pad16 B = pad16 (B.drop 16) := by
        simp only [pad16, hd]
        congr 2
        omega
      have e1 := chunks_append 16 (by decide) (B.take 16) (B.drop 16) (by simp [ht])
      rw [List.take_append_drop] at e1
      have e2 := chunks_append 16 (by decide) (B.take 16) (B.drop 16 ++ pad16 B) (by simp [ht])
      rw [← List.append_assoc, List.take_append_drop] at e2
      rw [e1, e2, List.map_append, ih (B.drop 16) (by omega), hp, chunks_single 16 (B.take 16) (by omega) (by omega)]
      simp [padChunk, ht, zeros]

/-- A string of a multiple of 16 bytes has no padding, so what follows it is absorbed after it (R148, R171). -/
theorem absorbPadded_append (r : BitVec 128) (acc : Nat) (A B : List Byte) (h : A.length % 16 = 0) :
    absorbPadded r (absorbPadded r acc A) B = absorbPadded r acc (A ++ B) := by
  simp [absorbPadded, chunks_append 16 (by decide) A B h, absorb_append]

theorem foldl_or_eq_zero (l : List Byte) (b : Byte) :
    l.foldl (· ||| ·) b = 0#8 ↔ b = 0#8 ∧ ∀ x ∈ l, x = 0#8 := by
  induction l generalizing b with
  | nil => simp
  | cons x l ih =>
    rw [List.foldl_cons, ih, BitVec.or_eq_zero_iff]
    simp [and_assoc]

/-- The comparison of R176 finds no difference exactly in equal strings. -/
theorem tagDiff_eq_zero (A B : List Byte) (h : A.length = B.length) : tagDiff A B = 0#8 ↔ A = B := by
  rw [tagDiff, foldl_or_eq_zero]
  simp only [true_and]
  induction A generalizing B with
  | nil => simp [xorBytes, List.length_eq_zero_iff.mp h.symm]
  | cons a A ih =>
    cases B with
    | nil => simp at h
    | cons b B =>
      have := ih B (by simpa using h)
      simp only [xorBytes, List.zipWith_cons_cons, List.mem_cons, forall_eq_or_imp, List.cons.injEq] at this ⊢
      rw [this, BitVec.xor_eq_zero_iff]

/-- The match of R176: RTAG holds the tag of the session, all of it written. -/
theorem tagMatches_iff (s : State) : s.tagMatches = true ↔ s.aeadTag = groupBytes s.rtag ∧ s.rtagv = true := by
  rw [State.tagMatches, Bool.and_eq_true, beq_iff_eq, tagDiff_eq_zero _ _ (by simp [State.aeadTag])]

end Sys2Proof.Machine
end

