-- ==== Sys2Proof/Laws/Exec.lean ====
section
/-! SUPPORT. What a command's step can do, said once: `exec` is `runCommand` with the command's own effect, it always answers
a next state, and that state is one of three. -/

namespace Sys2Proof.Machine

/-- The completion effect of each command. -/
def effectOf : Instr → State → State × Option ErrCode
  | .chachaBlock _ => chachaBlockEffect
  | .chachaXor len => chachaXorEffect len
  | .polyInit _ => polyInitEffect
  | .polyUpdate len => polyUpdateEffect len
  | .polyFinal _ => polyFinalEffect
  | .aeadSealInit _ => aeadSealInitEffect
  | .aeadOpenInit _ => aeadOpenInitEffect
  | .aeadAad len => aeadAadEffect len
  | .aeadEnc len => aeadEncEffect len
  | .aeadTag _ => aeadTagEffect
  | .aeadAbsorb len => aeadAbsorbEffect len
  | .aeadVerify _ => aeadVerifyEffect
  | .aeadDecrypt len => aeadDecryptEffect len
  | .abort _ => abortEffect
  | .zeroize _ => zeroizeEffect

theorem exec_eq_runCommand (i : Instr) (s : State) : exec i s = runCommand i (effectOf i) s := by
  cases i <;> rfl

/-- With no command in flight, `exec` presents the command (R102). -/
theorem exec_of_idle {s : State} (i : Instr) (h : s.pending = none) : exec i s = .next (issue i s) := by
  simp [exec_eq_runCommand, runCommand, h]

/-- With the command itself in flight, `exec` completes it (R104). -/
theorem exec_of_pending {s : State} {i : Instr} (h : s.pending = some i) :
    exec i s = .next (finish (effectOf i s)) := by
  simp [exec_eq_runCommand, runCommand, h]

/-- With another command in flight, `exec` turns the command away (R102 check 1). -/
theorem exec_of_other {s : State} {i j : Instr} (h : s.pending = some j) (hne : j ≠ i) :
    exec i s = .next (raiseError .busy s) := by
  simp [exec_eq_runCommand, runCommand, h, hne]

/-- Everything `exec` can do. -/
theorem exec_cases {s t : State} {i : Instr} (h : exec i s = .next t) :
    (s.pending = none ∧ t = issue i s) ∨ (s.pending = some i ∧ t = finish (effectOf i s)) ∨
    (∃ j, s.pending = some j ∧ j ≠ i ∧ t = raiseError .busy s) := by
  cases hp : s.pending with
  | none =>
    rw [exec_of_idle i hp, Host.Outcome.next.injEq] at h
    exact .inl ⟨rfl, h.symm⟩
  | some j =>
    by_cases hj : j = i
    · subst hj
      rw [exec_of_pending hp, Host.Outcome.next.injEq] at h
      exact .inr (.inl ⟨rfl, h.symm⟩)
    · rw [exec_of_other hp hj, Host.Outcome.next.injEq] at h
      exact .inr (.inr ⟨j, rfl, hj, h.symm⟩)

/-- No command faults or is refused. -/
theorem exec_next (i : Instr) (s : State) : ∃ t, exec i s = .next t := by
  cases hp : s.pending with
  | none => exact ⟨_, exec_of_idle i hp⟩
  | some j =>
    by_cases hj : j = i
    · exact ⟨_, exec_of_pending (hj ▸ hp)⟩
    · exact ⟨_, exec_of_other hp hj⟩

/-- Everything presentation can do: acceptance when checks 3 to 6 hold, else exactly one of four errors (R102). -/
theorem issue_cases (i : Instr) (s : State) :
    (issuable i s = true ∧ issue i s = accept i s) ∨
    (issuable i s = false ∧ ∃ code, code ∈ ([.badlen, .sequence, .key, .nonce] : List ErrCode) ∧
      issue i s = raiseError code s) := by
  unfold issue issuable
  cases i.wf <;> cases admitted i s.phase <;> cases needsKeyNonce i <;> cases s.keyv <;> cases s.noncev <;> simp

/-- Only AEAD_VERIFY raises an error at completion, and only AUTH (R104, R176). -/
theorem effectOf_error (i : Instr) (s : State) :
    (effectOf i s).2 = none ∨ ((∃ len, i = .aeadVerify len) ∧ (effectOf i s).2 = some .auth) := by
  cases i with
  | aeadVerify len =>
    simp only [effectOf, aeadVerifyEffect]
    split
    · exact .inl rfl
    · exact .inr ⟨⟨len, rfl⟩, rfl⟩
  | _ => exact .inl rfl

@[simp] theorem finish_none (s : State) : finish (s, none) = { s with pending := none, done := true } := rfl

@[simp] theorem finish_some (s : State) (code : ErrCode) :
    finish (s, some code) = raiseError code { s with pending := none } := rfl

/-- The port and CTRL belong to no command: no completion touches them (R104, R110). -/
theorem effectOf_port (i : Instr) (s : State) :
    (effectOf i s).1.inputs = s.inputs ∧ (effectOf i s).1.transfers = s.transfers ∧ (effectOf i s).1.draws = s.draws ∧
    (effectOf i s).1.rstN = s.rstN ∧ (effectOf i s).1.ie = s.ie ∧ (effectOf i s).1.eie = s.eie ∧
    (effectOf i s).1.done = s.done ∧ (effectOf i s).1.err = s.err ∧ (effectOf i s).1.errcode = s.errcode := by
  cases s
  cases i with
  | aeadVerify len =>
    simp only [effectOf, aeadVerifyEffect]
    split <;> exact ⟨rfl, rfl, rfl, rfl, rfl, rfl, rfl, rfl, rfl⟩
  | _ => exact ⟨rfl, rfl, rfl, rfl, rfl, rfl, rfl, rfl, rfl⟩

end Sys2Proof.Machine
end

