-- ==== Sys2Proof/Laws/PerInstr.lean ====
section
/-! SUPPORT. The family EncodedFields: for each command, the fields of its encoded word stand where R80 puts them. -/

namespace Sys2Proof.Laws

/-- The fields of a word built as R82's `OPC | LEN<<8`. -/
theorem word_fields (o : BitVec 5) (l : BitVec 7) :
    (o.setWidth 32 ||| l.setWidth 32 <<< 8).extractLsb' 0 5 = o ∧
    (o.setWidth 32 ||| l.setWidth 32 <<< 8).extractLsb' 5 3 = 0#3 ∧
    (o.setWidth 32 ||| l.setWidth 32 <<< 8).extractLsb' 8 7 = l ∧
    (o.setWidth 32 ||| l.setWidth 32 <<< 8).extractLsb' 15 17 = 0#17 := by
  refine ⟨?_, ?_, ?_, ?_⟩ <;> apply BitVec.eq_of_getLsbD_eq <;> intro i hi <;>
    simp only [BitVec.getLsbD_extractLsb', BitVec.getLsbD_or, BitVec.getLsbD_shiftLeft, BitVec.getLsbD_setWidth]
  all_goals interval_cases i <;> simp

namespace EncodedFields

/-- The encoded word of `i` has its opcode, its LEN and zero reserved bits at the places of R80. -/
def Statement (i : Instr) : Prop :=
  (encode i).extractLsb' 0 5 = i.opc ∧ (encode i).extractLsb' 5 3 = 0#3 ∧ (encode i).extractLsb' 8 7 = i.lenField ∧
    (encode i).extractLsb' 15 17 = 0#17

theorem chachaBlock (len : BitVec 7) : Statement (.chachaBlock len) := word_fields _ _
theorem chachaXor (len : BitVec 7) : Statement (.chachaXor len) := word_fields _ _
theorem polyInit (len : BitVec 7) : Statement (.polyInit len) := word_fields _ _
theorem polyUpdate (len : BitVec 7) : Statement (.polyUpdate len) := word_fields _ _
theorem polyFinal (len : BitVec 7) : Statement (.polyFinal len) := word_fields _ _
theorem aeadSealInit (len : BitVec 7) : Statement (.aeadSealInit len) := word_fields _ _
theorem aeadOpenInit (len : BitVec 7) : Statement (.aeadOpenInit len) := word_fields _ _
theorem aeadAad (len : BitVec 7) : Statement (.aeadAad len) := word_fields _ _
theorem aeadEnc (len : BitVec 7) : Statement (.aeadEnc len) := word_fields _ _
theorem aeadTag (len : BitVec 7) : Statement (.aeadTag len) := word_fields _ _
theorem aeadAbsorb (len : BitVec 7) : Statement (.aeadAbsorb len) := word_fields _ _
theorem aeadVerify (len : BitVec 7) : Statement (.aeadVerify len) := word_fields _ _
theorem aeadDecrypt (len : BitVec 7) : Statement (.aeadDecrypt len) := word_fields _ _
theorem abort (len : BitVec 7) : Statement (.abort len) := word_fields _ _
theorem zeroize (len : BitVec 7) : Statement (.zeroize len) := word_fields _ _

end EncodedFields

end Sys2Proof.Laws
end

