-- ==== Sys2Proof/Laws/Step.lean ====
section
/-! SUPPORT. What a step can do, said once: every input is taken, no step stops the machine, and each kind of input leaves one
of a few states. -/

namespace Sys2Proof.Machine

theorem step_nil {s : State} (h : s.inputs = []) : step s = perform .coreTurn s := by
  simp [step, h]

theorem step_cons {s : State} {i : Input} {rest : List Input} (h : s.inputs = i :: rest) :
    step s = perform i { s with inputs := rest } := by
  simp [step, h]

/-- A CMD write is answered and presented; an aligned 32-bit write to another register is answered and stored. -/
theorem hostWrite_cases (off : BitVec 9) (width : Nat) (v : Word) (s : State) :
    (misaccess off width = true ∧
      hostWrite off width v s = .next (raiseError .bus (answer (.write off Config.busErrorResponse) s))) ∨
    (misaccess off width = false ∧ regAt off = .cmd ∧ hostWrite off width v s = present v (answer (.write off false) s)) ∨
    (misaccess off width = false ∧ regAt off ≠ .cmd ∧
      hostWrite off width v s = .next (writeData (regAt off) v (answer (.write off false) s))) := by
  unfold hostWrite
  cases misaccess off width <;> by_cases h : regAt off = .cmd <;> simp [h]

/-- Everything presentation of a word can do (R101, R102). -/
theorem present_cases (w : Word) (s : State) :
    (s.busy = true ∧ present w s = .next (raiseError .busy s)) ∨
    (s.busy = false ∧ (∃ e, decode w = .error e) ∧ present w s = .next (raiseError .illegal s)) ∨
    (s.busy = false ∧ ∃ i, decode w = .ok i ∧ present w s = exec i s ∧ exec i s = .next (issue i s)) := by
  unfold present
  cases hb : s.busy with
  | true => simp
  | false =>
    have hp := (busy_eq_false s).mp hb
    cases hd : decode w with
    | error e => simp
    | ok i => simp [exec_of_idle i hp]

theorem present_next (w : Word) (s : State) : ∃ t, present w s = .next t := by
  rcases present_cases w s with ⟨_, h⟩ | ⟨_, _, h⟩ | ⟨_, i, _, h, h'⟩
  · exact ⟨_, h⟩
  · exact ⟨_, h⟩
  · exact ⟨_, h.trans h'⟩

theorem hostWrite_next (off : BitVec 9) (width : Nat) (v : Word) (s : State) : ∃ t, hostWrite off width v s = .next t := by
  rcases hostWrite_cases off width v s with ⟨_, h⟩ | ⟨_, _, h⟩ | ⟨_, _, h⟩
  · exact ⟨_, h⟩
  · rw [h]; exact present_next _ _
  · exact ⟨_, h⟩

theorem coreStep_next (s : State) : ∃ t, coreStep s = .next t := by
  unfold coreStep
  split
  · exact ⟨_, rfl⟩
  · exact exec_next _ _

theorem perform_read {s : State} (h : s.rstN = true) (off : BitVec 9) (width : Nat) :
    perform (.read off width) s = .next (hostRead off width s) := by simp [perform, h]

theorem perform_write {s : State} (h : s.rstN = true) (off : BitVec 9) (width : Nat) (v : Word) :
    perform (.write off width v) s = hostWrite off width v s := by simp [perform, h]

theorem perform_coreTurn {s : State} (h : s.rstN = true) : perform .coreTurn s = coreStep s := by simp [perform, h]

/-- While `rst_n` is low nothing but its rising edge is more than the reset held (R230). -/
theorem perform_held {s : State} (h : s.rstN = false) (i : Input) :
    perform i s = .next (match i with
      | .rstN level => { resetCore s with rstN := level }
      | _ => resetCore s) := by
  cases i <;> simp [perform, h]

theorem perform_rstN (s : State) (level : Bool) :
    perform (.rstN level) s = .next (if s.rstN && level then s else { resetCore s with rstN := level }) := by
  simp only [perform]
  split <;> rfl

theorem perform_next (i : Input) (s : State) : ∃ t, perform i s = .next t := by
  cases h : s.rstN with
  | false => exact ⟨_, perform_held h i⟩
  | true =>
    cases i with
    | read off width => exact ⟨_, perform_read h off width⟩
    | write off width v => rw [perform_write h]; exact hostWrite_next off width v s
    | coreTurn => rw [perform_coreTurn h]; exact coreStep_next s
    | rstN level => exact ⟨_, perform_rstN s level⟩

/-- No step faults or is refused. -/
theorem step_next (s : State) : ∃ t, step s = .next t := by
  unfold step
  split <;> exact perform_next _ _

/-- What a read changes: the port's log, the draw counter for a free value, ERR and ERRCODE for a refused one (R61, R63). -/
theorem hostRead_frame (off : BitVec 9) (width : Nat) (s : State) :
    ∃ v e n b c, hostRead off width s =
      { s with transfers := s.transfers ++ [.read off v e], draws := n, err := b, errcode := c } := by
  unfold hostRead readReg
  split
  · exact ⟨_, _, s.draws, _, _, rfl⟩
  · by_cases h : (s.busy && (regAt off).isResult) = true
    · simp only [h, if_true]
      exact ⟨_, _, _, s.err, s.errcode, rfl⟩
    · simp only [h]
      exact ⟨_, _, s.draws, s.err, s.errcode, rfl⟩

/-- A write never touches the inputs still to come, the draw counter or `rst_n`. -/
theorem writeData_port (r : Reg) (v : Word) (s : State) :
    (writeData r v s).inputs = s.inputs ∧ (writeData r v s).transfers = s.transfers ∧
    (writeData r v s).draws = s.draws ∧ (writeData r v s).rstN = s.rstN := by
  cases r <;>
    simp only [writeData, writeCtrl, writeStatus, unlessLocked, unlessBusy] <;>
    (repeat' split) <;> simp

/-- No command other than through its completion, and no reset, leaves another command in flight: a write keeps PENDING or
clears it. -/
theorem writeData_pending (r : Reg) (v : Word) (s : State) :
    (writeData r v s).pending = s.pending ∨ writeData r v s = resetCore s := by
  cases r <;>
    simp only [writeData, writeCtrl, writeStatus, unlessLocked, unlessBusy] <;>
    (repeat' split) <;> simp

end Sys2Proof.Machine
end

