-- ==== Sys2Proof/Laws/Window.lean ====
section
/-! SUPPORT. The register window: where each register stands, what an aligned access of a whole word does at it, and the bits
of the two computed words, STATUS and CTRL. -/

namespace Sys2Proof.Machine

theorem offset_aligned (r : Reg) : r.offset.toNat % 4 = 0 := by
  cases r <;> simp [Reg.offset]

/-- The register at a register's own offset is that register. -/
theorem regAt_offset (r : Reg) : regAt r.offset = r := by
  cases r with
  | key j => revert j; decide
  | nonce j => revert j; decide
  | tag j => revert j; decide
  | rtag j => revert j; decide
  | din j => revert j; decide
  | dout j => revert j; decide
  | _ => decide

theorem misaccess_aligned {off : BitVec 9} (h : off.toNat % 4 = 0) : misaccess off 4 = false := by
  simp [misaccess, h]

/-- With the input `i` next, a step performs `i`. -/
theorem step_facing (s : State) (i : Input) : step (s.facing i) = perform i s := rfl

/-- An aligned write of a whole word (R62). -/
theorem perform_write_aligned {s : State} {off : BitVec 9} (hr : s.rstN = true) (ha : off.toNat % 4 = 0) (v : Word) :
    perform (.write off 4 v) s =
      if regAt off = .cmd then present v (answer (.write off false) s)
      else .next (writeData (regAt off) v (answer (.write off false) s)) := by
  rw [perform_write hr, hostWrite, misaccess_aligned ha]
  rfl

/-- An aligned read of a whole word (R61). -/
theorem perform_read_aligned {s : State} {off : BitVec 9} (hr : s.rstN = true) (ha : off.toNat % 4 = 0) :
    perform (.read off 4) s =
      .next (answer (.read off (readReg (regAt off) s).1 false) (readReg (regAt off) s).2) := by
  rw [perform_read hr, hostRead, misaccess_aligned ha]
  rfl

/-- `wr REG, v` to a register that is not CMD. -/
theorem perform_hostWr {s : State} {r : Reg} (hr : s.rstN = true) (hc : r ≠ .cmd) (v : Word) :
    perform (hostWr r v) s = .next (writeData r v (s.wrote r)) := by
  rw [hostWr, perform_write_aligned hr (offset_aligned r), regAt_offset, if_neg hc]
  rfl

/-- `wr CMD, w`. -/
theorem perform_hostWr_cmd {s : State} (hr : s.rstN = true) (w : Word) :
    perform (hostWr .cmd w) s = present w (s.wrote .cmd) := by
  rw [hostWr, perform_write_aligned hr (offset_aligned _), regAt_offset]
  rfl

/-- `rd REG` of a register that is not a result, or with no command in flight. -/
theorem perform_hostRd {s : State} {r : Reg} (hr : s.rstN = true) (h : (s.busy && r.isResult) = false) :
    perform (hostRd r) s = .next (answer (.read r.offset (regValue r s) false) s) := by
  rw [hostRd, perform_read_aligned hr (offset_aligned r), regAt_offset, readReg, h]
  rfl

/-- `rst_n` driven low resets the core. -/
theorem perform_rstN_low (s : State) : perform (.rstN false) s = .next { resetCore s with rstN := false } := by
  simp [perform_rstN]

/-- The rising edge of `rst_n` ends the reset. -/
theorem perform_rstN_rise {s : State} (h : s.rstN = false) :
    perform (.rstN true) s = .next { resetCore s with rstN := true } := by
  simp [perform_rstN, h]

/-- The bits of STATUS (R24). -/
theorem statusWord_getLsbD (s : State) (i : Nat) : s.statusWord.getLsbD i =
    if i < 1 then s.busy else if i < 2 then s.done else if i < 3 then s.err else if i < 4 then s.authOk
    else if i < 5 then s.cwrap else if i < 8 then false else if i < 12 then s.errcode.code.getLsbD (i - 8)
    else if i < 16 then s.phase.code.getLsbD (i - 12) else if i < 17 then s.keyv else if i < 18 then s.noncev
    else if i < 19 then s.rtagv else false := by
  unfold State.statusWord
  have h : ∀ w : BitVec (13 + 1 + 1 + 1 + 4 + 4 + 3 + 1 + 1 + 1 + 1 + 1),
    BitVec.getLsbD (w := 32) w i = w.getLsbD i := fun _ => rfl
  rw [h]
  by_cases hi : i < 19
  · interval_cases i <;> simp only [BitVec.getLsbD_append] <;> simp
  · simp only [BitVec.getLsbD_append]
    simp (disch := omega) only [if_neg, Nat.sub_sub]
    simp

/-- The bits of CTRL as it is read (R22). -/
theorem ctrlWord_getLsbD (s : State) (i : Nat) :
    s.ctrlWord.getLsbD i = if i < 1 then s.ie else if i < 2 then s.eie else false := by
  unfold State.ctrlWord
  have h : ∀ w : BitVec (30 + 1 + 1), BitVec.getLsbD (w := 32) w i = w.getLsbD i := fun _ => rfl
  rw [h]
  by_cases hi : i < 2
  · interval_cases i <;> simp only [BitVec.getLsbD_append] <;> simp
  · simp only [BitVec.getLsbD_append]
    simp (disch := omega) only [if_neg, Nat.sub_sub]
    simp

/-- A mask of all ones, bit by bit (R32, R33). -/
theorem mask_full_iff {n : Nat} (m : BitVec n) : m = BitVec.allOnes n ↔ ∀ j : Fin n, m.getLsbD j = true := by
  constructor
  · rintro rfl j
    simp
  · intro h
    apply BitVec.eq_of_getLsbD_eq
    intro i hi
    simp [h ⟨i, hi⟩, hi]

end Sys2Proof.Machine
end

