-- ==== Sys2Proof/Laws/Run.lean ====
section
/-! SUPPORT. Runs. `Runs s is t ds gs` says that the accesses `is` take the core from `s` to `t` and give the host the words
`ds` from DOUT and `gs` from TAG, whatever the port's log was and whatever comes after; `HostRuns` says the same of a host
program with its waits. Both compose, so a sequence of the spec is proved part by part. -/

namespace Sys2Proof.Machine

/-- `s` with `is` still to come at the port and `log` answered so far. -/
def State.port (s : State) (is : List Input) (log : List Transfer) : State := { s with inputs := is, transfers := log }

@[simp] theorem port_port (s : State) (is js : List Input) (l m : List Transfer) :
    (s.port is l).port js m = s.port js m := rfl

@[simp] theorem port_rstN (s : State) (is : List Input) (l : List Transfer) : (s.port is l).rstN = s.rstN := rfl
@[simp] theorem port_pending (s : State) (is : List Input) (l : List Transfer) : (s.port is l).pending = s.pending := rfl
@[simp] theorem port_phase (s : State) (is : List Input) (l : List Transfer) : (s.port is l).phase = s.phase := rfl
@[simp] theorem port_busy (s : State) (is : List Input) (l : List Transfer) : (s.port is l).busy = s.busy := rfl

theorem port_self (s : State) : s.port s.inputs s.transfers = s := rfl

/-- The input `i` takes the core from `s` to `t`, the port answering `ts`; the port's own fields of `s` and `t` do not
matter. -/
def Takes (s : State) (i : Input) (t : State) (ts : List Transfer) : Prop :=
  ∀ (rest : List Input) (log : List Transfer), perform i (s.port rest log) = .next (t.port rest (log ++ ts))

/-- A chain of inputs; `ds` and `gs` are the words the host has read from DOUT and TAG. -/
inductive Runs : State → List Input → State → List Word → List Word → Prop
  | nil (s : State) : Runs s [] s [] []
  | cons {s t u : State} {i : Input} {ts : List Transfer} {is : List Input} {ds gs : List Word} (h : Takes s i t ts)
      (h' : Runs t is u ds gs) : Runs s (i :: is) u (doutWords ts ++ ds) (tagWords ts ++ gs)

/-- A host program's run. -/
def HostRuns (s : State) (ops : List HostOp) (t : State) (ds gs : List Word) : Prop :=
  ∃ ts, doutWords ts = ds ∧ tagWords ts = gs ∧ ∀ (rest : List Input) (log : List Transfer),
    runHost ops (s.port rest log) = .next (t.port rest (log ++ ts))

/-! Reads at the port. -/

theorem doutWords_append (ts us : List Transfer) : doutWords (ts ++ us) = doutWords ts ++ doutWords us := by
  simp [doutWords]

theorem tagWords_append (ts us : List Transfer) : tagWords (ts ++ us) = tagWords ts ++ tagWords us := by
  simp [tagWords]

@[simp] theorem doutWords_nil : doutWords [] = [] := rfl
@[simp] theorem tagWords_nil : tagWords [] = [] := rfl
@[simp] theorem doutWords_write (off : BitVec 9) (b : Bool) : doutWords [.write off b] = [] := rfl
@[simp] theorem tagWords_write (off : BitVec 9) (b : Bool) : tagWords [.write off b] = [] := rfl

@[simp] theorem doutWords_dout (j : Fin 16) (v : Word) (b : Bool) : doutWords [.read (Reg.dout j).offset v b] = [v] := by
  simp [doutWords, regAt_offset]
@[simp] theorem tagWords_dout (j : Fin 16) (v : Word) (b : Bool) : tagWords [.read (Reg.dout j).offset v b] = [] := by
  simp [tagWords, regAt_offset]
@[simp] theorem doutWords_tag (j : Fin 4) (v : Word) (b : Bool) : doutWords [.read (Reg.tag j).offset v b] = [] := by
  simp [doutWords, regAt_offset]
@[simp] theorem tagWords_tag (j : Fin 4) (v : Word) (b : Bool) : tagWords [.read (Reg.tag j).offset v b] = [v] := by
  simp [tagWords, regAt_offset]
@[simp] theorem doutWords_status (v : Word) (b : Bool) : doutWords [.read Reg.status.offset v b] = [] := by
  simp [doutWords, regAt_offset]
@[simp] theorem tagWords_status (v : Word) (b : Bool) : tagWords [.read Reg.status.offset v b] = [] := by
  simp [tagWords, regAt_offset]

/-! The machine's own runs. -/

theorem coreRun_succ (M : Host.Core) {s t : M.State} (n : Nat) (h : M.step s = .next t) :
    M.run (n + 1) s = M.run n t := by
  rw [Host.Core.run, h]

/-- One more step at the front of a run. -/
theorem run_succ {s t : State} (n : Nat) (h : step s = .next t) :
    Host.Core.run core (n + 1) s = Host.Core.run core n t :=
  coreRun_succ core n h

/-- Two runs, one after the other. -/
theorem run_add {s t : State} (m n : Nat) (h : Host.Core.run core m s = .next t) :
    Host.Core.run core (m + n) s = Host.Core.run core n t := by
  induction m generalizing s with
  | zero =>
    have h' : Host.Outcome.next s = Host.Outcome.next t := h
    rw [Host.Outcome.next.injEq] at h'
    rw [h', Nat.zero_add]
  | succ m ih =>
    obtain ⟨u, hu⟩ := step_next s
    rw [run_succ m hu] at h
    rw [Nat.succ_add, run_succ _ hu]
    exact ih h

/-! Chains of inputs. -/

theorem Runs.one {s t : State} {i : Input} {ts : List Transfer} (h : Takes s i t ts) :
    Runs s [i] t (doutWords ts) (tagWords ts) := by
  simpa using Runs.cons h (Runs.nil t)

theorem Runs.append {s t u : State} {is js : List Input} {ds gs ds' gs' : List Word} (h : Runs s is t ds gs)
    (h' : Runs t js u ds' gs') : Runs s (is ++ js) u (ds ++ ds') (gs ++ gs') := by
  induction h with
  | nil => exact h'
  | cons h _ ih =>
    rw [List.append_assoc, List.append_assoc]
    exact Runs.cons h (ih h')

/-- What a chain says of the machine itself, its inputs being at the port. -/
theorem Runs.run_eq {s t : State} {is : List Input} {ds gs : List Word} (h : Runs s is t ds gs) :
    ∃ ts, doutWords ts = ds ∧ tagWords ts = gs ∧ ∀ (rest : List Input) (log : List Transfer),
      Host.Core.run core is.length (s.port (is ++ rest) log) = .next (t.port rest (log ++ ts)) := by
  induction h with
  | nil => exact ⟨[], rfl, rfl, fun rest log => by simp [Host.Core.run]⟩
  | @cons s t u i ts is ds gs h h' ih =>
    obtain ⟨us, hd, hg, hrun⟩ := ih
    refine ⟨ts ++ us, by rw [doutWords_append, hd], by rw [tagWords_append, hg], fun rest log => ?_⟩
    have h1 : step (s.port (i :: is ++ rest) log) = .next (t.port (is ++ rest) (log ++ ts)) := h _ _
    rw [List.length_cons, run_succ _ h1, hrun, List.append_assoc]

/-- The same, in the form of a statement about `s` with the inputs `is` and no others. -/
theorem Runs.exists_next {s t : State} {is : List Input} {ds gs : List Word} (h : Runs s is t ds gs) :
    ∃ u, Host.Core.run core is.length (s.given is) = .next u ∧ u = t.port [] u.transfers := by
  obtain ⟨ts, _, _, hrun⟩ := h.run_eq
  have h1 := hrun [] s.transfers
  rw [List.append_nil] at h1
  exact ⟨_, h1, rfl⟩

theorem writeData_port_comm (r : Reg) (v : Word) (s : State) (is : List Input) (l : List Transfer) :
    writeData r v (s.port is l) = (writeData r v s).port is l := by
  have hb : (s.port is l).busy = s.busy := rfl
  cases h : s.busy <;> cases h' : s.phase.isAead <;> cases r <;>
    simp only [writeData, writeCtrl, writeStatus, unlessLocked, unlessBusy, hb, port_phase, h, h'] <;>
    (try split) <;> rfl

theorem effectOf_port_comm (i : Instr) (s : State) (is : List Input) (l : List Transfer) :
    effectOf i (s.port is l) = ((effectOf i s).1.port is l, (effectOf i s).2) := by
  cases i with
  | aeadVerify len =>
    have hm : (s.port is l).tagMatches = s.tagMatches := rfl
    simp only [effectOf, aeadVerifyEffect, hm]
    split <;> rfl
  | _ => rfl

/-! The host's operations. -/

/-- `wr REG, v` to a register that is not CMD. -/
theorem Takes.hostWr {s : State} (hr : s.rstN = true) {r : Reg} (hc : r ≠ .cmd) (v : Word) :
    Takes s (hostWr r v) (writeData r v s) [.write r.offset false] := by
  intro rest log
  rw [perform_hostWr (s := s.port rest log) hr hc]
  show Host.Outcome.next (writeData r v (s.port rest (log ++ [.write r.offset false]))) = _
  rw [writeData_port_comm]

theorem Runs.hostWr {s : State} (hr : s.rstN = true) {r : Reg} (hc : r ≠ .cmd) (v : Word) :
    Runs s [hostWr r v] (writeData r v s) [] [] :=
  Runs.one (Takes.hostWr hr hc v)

/-- `rd REG` with no command in flight, or of a register that is no result. -/
theorem Takes.hostRd {s : State} (hr : s.rstN = true) {r : Reg} (h : (s.busy && r.isResult) = false) :
    Takes s (hostRd r) s [.read r.offset (regValue r s) false] := by
  intro rest log
  rw [perform_hostRd (s := s.port rest log) hr h]
  cases r <;> rfl

/-- A poll of STATUS, busy or not. -/
theorem Takes.poll {s : State} (hr : s.rstN = true) :
    Takes s (Machine.hostRd .status) s [.read Reg.status.offset (regValue .status s) false] :=
  Takes.hostRd hr (by simp [Reg.isResult])

/-- The core's turn with a command in flight. -/
theorem Takes.turn {s : State} (hr : s.rstN = true) {i : Instr} (hp : s.pending = some i) :
    Takes s .coreTurn (finish (effectOf i s)) [] := by
  intro rest log
  rw [perform_coreTurn (s := s.port rest log) hr, coreStep, port_pending, hp]
  show exec i (s.port rest log) = _
  rw [exec_of_pending (s := s.port rest log) hp, effectOf_port_comm, List.append_nil]
  rcases effectOf i s with ⟨e, c⟩
  cases c <;> rfl

/-- The core's turn with none. -/
theorem Takes.idleTurn {s : State} (hr : s.rstN = true) (hp : s.pending = none) : Takes s .coreTurn s [] := by
  intro rest log
  rw [perform_coreTurn (s := s.port rest log) hr, coreStep, port_pending, hp, List.append_nil]

theorem issue_of_issuable {i : Instr} {s : State} (h : issuable i s = true) : issue i s = accept i s := by
  rcases issue_cases i s with ⟨_, h'⟩ | ⟨h', _⟩
  · exact h'
  · rw [h] at h'
    cases h'

/-- `cmd MNEMONIC, L`, a command that passes its checks, with none in flight. -/
theorem Takes.hostCmd {s : State} (hr : s.rstN = true) {i : Instr} (hp : s.pending = none) (hd : decode (encode i) = .ok i)
    (hi : issuable i s = true) : Takes s (hostCmd i) (accept i s) [.write Reg.cmd.offset false] := by
  intro rest log
  rw [Machine.hostCmd, perform_hostWr_cmd (s := s.port rest log) hr, present]
  have hb : ((s.port rest log).wrote .cmd).busy = false := (busy_eq_false s).mpr hp
  have hi' : issuable i ((s.port rest log).wrote .cmd) = true := hi
  simp only [hb, hd, exec_of_idle i (show ((s.port rest log).wrote .cmd).pending = none from hp)]
  rw [issue_of_issuable hi']
  rfl

/-! Host programs. -/

@[simp] theorem andThen_next (s : State) (f : State → Host.Outcome State Fault Refusal) : andThen (.next s) f = f s := rfl

theorem andThen_assoc (o : Host.Outcome State Fault Refusal) (f g : State → Host.Outcome State Fault Refusal) :
    andThen (andThen o f) g = andThen o fun s => andThen (f s) g := by
  cases o <;> rfl

theorem runHost_append (ops ops' : List HostOp) (s : State) :
    runHost (ops ++ ops') s = andThen (runHost ops s) (runHost ops') := by
  induction ops generalizing s with
  | nil => rfl
  | cons op ops ih =>
    cases op <;> simp only [List.cons_append, runHost, andThen_assoc, funext ih]

theorem Takes.step_facing {s t : State} {i : Input} {ts : List Transfer} (h : Takes s i t ts) (rest : List Input)
    (log : List Transfer) : step ((s.port rest log).facing i) = .next (t.port rest (log ++ ts)) := h rest log

theorem HostRuns.nil (s : State) : HostRuns s [] s [] [] :=
  ⟨[], rfl, rfl, fun rest log => by simp [runHost]⟩

theorem HostRuns.append {s t u : State} {ops ops' : List HostOp} {ds gs ds' gs' : List Word} (h : HostRuns s ops t ds gs)
    (h' : HostRuns t ops' u ds' gs') : HostRuns s (ops ++ ops') u (ds ++ ds') (gs ++ gs') := by
  obtain ⟨ts, hd, hg, hrun⟩ := h
  obtain ⟨us, hd', hg', hrun'⟩ := h'
  refine ⟨ts ++ us, by rw [doutWords_append, hd, hd'], by rw [tagWords_append, hg, hg'], fun rest log => ?_⟩
  rw [runHost_append, hrun, andThen_next, hrun', List.append_assoc]

/-- The accesses of a chain, as a program. -/
theorem Runs.host {s t : State} {is : List Input} {ds gs : List Word} (h : Runs s is t ds gs) :
    HostRuns s (accesses is) t ds gs := by
  induction h with
  | nil s => exact HostRuns.nil s
  | @cons s t u i ts is ds gs h h' ih =>
    obtain ⟨us, hd, hg, hrun⟩ := ih
    refine ⟨ts ++ us, by rw [doutWords_append, hd], by rw [tagWords_append, hg], fun rest log => ?_⟩
    simp only [accesses, List.map_cons, runHost] at hrun ⊢
    rw [h.step_facing, andThen_next, hrun, List.append_assoc]

/-- What a program's run says of the machine itself. -/
theorem HostRuns.exists_next {s t : State} {ops : List HostOp} {ds gs : List Word} (h : HostRuns s ops t ds gs) :
    ∃ u, runHost ops s = .next u ∧ doutWords (u.transfers.drop s.transfers.length) = ds ∧
      tagWords (u.transfers.drop s.transfers.length) = gs ∧ u = t.port s.inputs u.transfers := by
  obtain ⟨ts, hd, hg, hrun⟩ := h
  exact ⟨_, hrun s.inputs s.transfers, by simp [State.port, hd], by simp [State.port, hg], rfl⟩

theorem lastRead_port (s : State) (is : List Input) (log : List Transfer) (off : BitVec 9) (v : Word) (b : Bool) :
    (s.port is (log ++ [.read off v b])).lastRead = v := by
  simp [State.lastRead, State.port]

theorem status_busy (s : State) : (regValue .status s).getLsbD 0 = s.busy := statusWord_getLsbD s 0

/-- A wait with a command in flight: the polls before the turn, the turn, and the poll that reads 0 (R88). -/
theorem HostRuns.wait {s t : State} (hr : s.rstN = true) (hb : s.busy = true) (ht : Takes s .coreTurn t [])
    (hr' : t.rstN = true) (polls : Nat) : HostRuns s [.wait polls] t [] [] := by
  suffices h : ∃ ts, doutWords ts = [] ∧ tagWords ts = [] ∧ ∀ (rest : List Input) (log : List Transfer),
      hostWait polls (s.port rest log) = .next (t.port rest (log ++ ts)) by
    obtain ⟨ts, hd, hg, h⟩ := h
    exact ⟨ts, hd, hg, fun rest log => by simp [runHost, h]⟩
  induction polls with
  | zero =>
    refine ⟨_, doutWords_status (regValue .status t) false, tagWords_status _ _, fun rest log => ?_⟩
    rw [hostWait, ht.step_facing, andThen_next, (Takes.poll hr').step_facing, List.append_nil]
  | succ n ih =>
    obtain ⟨ts, hd, hg, h⟩ := ih
    refine ⟨[.read Reg.status.offset (regValue .status s) false] ++ ts, by rw [doutWords_append, hd]; simp,
      by rw [tagWords_append, hg]; simp, fun rest log => ?_⟩
    rw [hostWait, (Takes.poll hr).step_facing, andThen_next, lastRead_port, status_busy, hb, if_pos rfl, h, List.append_assoc]

/-- A wait ends having read BUSY as 0, with no command in flight (R88, R104), wherever it starts out of reset. -/
theorem hostWait_reads_idle (s : State) (hr : s.rstN = true) (polls : Nat) :
    ∃ t, hostWait polls s = .next t ∧ t.lastRead.getLsbD 0 = false ∧ t.pending = none := by
  have one : ∀ t : State, t.rstN = true → t.pending = none →
      ∃ u, step (t.facing (hostRd .status)) = .next u ∧ u.lastRead.getLsbD 0 = false ∧ u.pending = none := by
    intro t ht hp
    have h := (Takes.poll ht).step_facing t.inputs t.transfers
    rw [port_self] at h
    exact ⟨_, h, by rw [lastRead_port, status_busy]; exact (busy_eq_false t).mpr hp, hp⟩
  induction polls generalizing s with
  | zero =>
    cases hp : s.pending with
    | none =>
      have h := (Takes.idleTurn hr hp).step_facing s.inputs s.transfers
      rw [port_self, List.append_nil, port_self] at h
      rw [hostWait, h, andThen_next]
      exact one s hr hp
    | some i =>
      have h := (Takes.turn hr hp).step_facing s.inputs s.transfers
      rw [port_self, List.append_nil] at h
      rw [hostWait, h, andThen_next]
      have he := (effectOf_port i s).2.2.2.1
      rcases hx : effectOf i s with ⟨e, c⟩
      rw [hx] at he
      cases c <;> exact one _ (he.trans hr) rfl
  | succ n ih =>
    have h := (Takes.poll hr).step_facing s.inputs s.transfers
    rw [port_self] at h
    rw [hostWait, h, andThen_next, lastRead_port, status_busy]
    cases hb : s.busy with
    | true => exact ih _ hr
    | false =>
      refine ⟨_, rfl, ?_, (busy_eq_false s).mp hb⟩
      rw [lastRead_port, status_busy, hb]

/-- The state a command leaves that is issued with none in flight and completes. -/
def completed (i : Instr) (s : State) : State := finish (effectOf i (accept i s))

theorem completed_rstN (i : Instr) (s : State) : (completed i s).rstN = s.rstN := by
  have h := (effectOf_port i (accept i s)).2.2.2.1
  unfold completed
  rw [← Prod.mk.eta (p := effectOf i (accept i s))]
  cases (effectOf i (accept i s)).2 <;> exact h

/-- `run MNEMONIC, L` of a command that passes its checks. -/
theorem HostRuns.run {s : State} (hr : s.rstN = true) {i : Instr} (hp : s.pending = none) (hd : decode (encode i) = .ok i)
    (hi : issuable i s = true) (polls : Nat) : HostRuns s (hostRun polls i) (completed i s) [] [] := by
  have h1 := (Runs.one (Takes.hostCmd hr hp hd hi)).host
  have h2 : HostRuns (accept i s) [.wait polls] (completed i s) [] [] :=
    HostRuns.wait (s := accept i s) hr rfl (Takes.turn (s := accept i s) hr rfl) ((completed_rstN i s).trans hr) polls
  exact h1.append h2

end Sys2Proof.Machine
end

