-- ==== Sys2Proof/Laws/Sequences.lean ====
section
/-! SUPPORT. The host's data transfers as runs: `lddin`, `rddout` and `rdtag` of spec/30_encoding.md R88, the words of a byte
string, and how the MAC input of R163 is absorbed part by part. -/

namespace Sys2Proof.Machine

/-! Words of byte strings. -/

/-- The little-endian words that hold a byte string, the last filled with zero bytes (R64, R88): what the reads of
`rddout` and `rdtag` give. -/
def wordsOf (B : List Byte) : List Word := (List.range ((B.length + 3) / 4)).map fun j => le32 B j

@[simp] theorem length_wordsOf (B : List Byte) : (wordsOf B).length = (B.length + 3) / 4 := by simp [wordsOf]

@[simp] theorem wordsOf_nil : wordsOf [] = [] := rfl

theorem slice_append_zeros (B : List Byte) (k a b : Nat) : ∃ m, slice (B ++ zeros k) a b = slice B a b ++ zeros m := by
  have h : (zeros k).take (b - B.length) = zeros (min (b - B.length) k) := by simp [zeros]
  have h' : ∀ c n, (zeros n).drop c = zeros (n - c) := by simp [zeros]
  rw [slice, slice, List.take_append, List.drop_append, h, h']
  exact ⟨_, rfl⟩

/-- Zero bytes at the end change no word (R88: `lddin` fills a last partial word with zero bytes). -/
theorem le32_append_zeros (B : List Byte) (k j : Nat) : le32 (B ++ zeros k) j = le32 B j := by
  obtain ⟨m, h⟩ := slice_append_zeros B k (4 * j) (4 * j + 4)
  rw [le32, h, le_append, le_zeros]
  simp [le32]

/-- The words of two strings, one after the other, cut at a word. -/
theorem wordsOf_append (A B : List Byte) (h : A.length % 4 = 0) : wordsOf (A ++ B) = wordsOf A ++ wordsOf B := by
  obtain ⟨q, hq⟩ : ∃ q, A.length = 4 * q := ⟨A.length / 4, by omega⟩
  simp only [wordsOf]
  rw [show ((A ++ B).length + 3) / 4 = q + (B.length + 3) / 4 by rw [List.length_append]; omega,
    show (A.length + 3) / 4 = q by omega, List.range_add, List.map_append, List.map_map]
  congr 1
  · apply List.map_congr_left
    intro j hj
    have := List.mem_range.mp hj
    simp only [le32, slice]
    rw [List.take_append_of_le_length (by omega)]
  · apply List.map_congr_left
    intro j _
    simp only [Function.comp_apply, le32, slice]
    rw [show 4 * (q + j) + 4 = A.length + (4 * j + 4) by omega, List.take_length_add_append,
      show 4 * (q + j) = A.length + 4 * j by omega, List.drop_length_add_append]

/-! Loading the input buffer. -/

/-- DIN after `lddin B`: the words `B` covers, the others as they were. -/
def loadedDin (B : List Byte) (v : Vector Word 16) : Vector Word 16 :=
  Vector.ofFn fun j => if j.val < (B.length + 3) / 4 then le32 B j else v[j]

theorem Runs.hostWr_din {s : State} (hr : s.rstN = true) (hp : s.pending = none) (j : Fin 16) (v : Word) :
    Runs s [Machine.hostWr (.din j) v] { s with din := s.din.set j v } [] [] := by
  have h := Runs.hostWr hr (r := .din j) (by simp) v
  simpa [writeData, unlessBusy, (busy_eq_false s).mpr hp] using h

/-- Writes of the first `n` words of `B` into DIN; `d` gives DIN after each of them. -/
theorem Runs.dinWrites {s : State} (hr : s.rstN = true) (hp : s.pending = none) (B : List Byte)
    (d : Nat → Vector Word 16) (h0 : d 0 = s.din) (n : Nat)
    (hd : ∀ k < n, (d k).set (Fin.ofNat 16 k) (le32 B k) = d (k + 1)) :
    Runs s ((List.range n).map fun j => Machine.hostWr (.din (Fin.ofNat 16 j)) (le32 B j)) { s with din := d n } [] [] := by
  induction n with
  | zero =>
    rw [h0]
    exact Runs.nil s
  | succ n ih =>
    have h := (ih fun k hk => hd k (by omega)).append
      (Runs.hostWr_din (s := { s with din := d n }) hr hp (Fin.ofNat 16 n) (le32 B n))
    simp only [hd n (by omega)] at h
    rw [List.range_succ, List.map_append]
    exact h

/-- `lddin B` with no command in flight (R88). -/
theorem Runs.lddin {s : State} (hr : s.rstN = true) (hp : s.pending = none) (B : List Byte) (hB : B.length ≤ 64) :
    Runs s (lddin B) { s with din := loadedDin B s.din } [] [] := by
  refine Runs.dinWrites hr hp B (fun n => Vector.ofFn fun j => if j.val < n then le32 B j else s.din[j]) ?_ _ ?_
  · apply Vector.ext
    intro i hi
    simp
  · intro k hk
    apply Vector.ext
    intro i hi
    have hm : k % 16 = k := Nat.mod_eq_of_lt (by omega)
    simp only [Fin.ofNat_eq_cast, Fin.val_natCast, hm, Vector.getElem_set, Vector.getElem_ofFn]
    by_cases h : k = i
    · subst h
      simp
    · rw [if_neg h]
      by_cases h' : i < k
      · rw [if_pos h', if_pos (by omega)]
      · rw [if_neg h', if_neg (by omega)]

/-- What `lddin B` puts at the front of DIN is `B` (R38). -/
theorem slice_loadedDin (B : List Byte) (v : Vector Word 16) (hB : B.length ≤ 64) :
    slice (groupBytes (loadedDin B v)) 0 B.length = B := by
  have h := groupBytes_groupOfBytes ((B.length + 3) / 4) (B ++ zeros (4 * ((B.length + 3) / 4) - B.length))
    (by rw [List.length_append, length_zeros]; omega)
  have e : (loadedDin B v).toList =
      (groupOfBytes ((B.length + 3) / 4) (B ++ zeros (4 * ((B.length + 3) / 4) - B.length))).toList ++
        v.toList.drop ((B.length + 3) / 4) := by
    apply List.ext_getElem
    · simp
      omega
    · intro i h1 h2
      simp only [loadedDin, Vector.toList_ofFn, List.getElem_ofFn, groupOfBytes, le32_append_zeros]
      by_cases hi : i < (B.length + 3) / 4
      · rw [if_pos hi, List.getElem_append_left (by simpa using hi), List.getElem_ofFn]
      · rw [if_neg hi, List.getElem_append_right (by simp; omega)]
        simp only [List.length_ofFn, List.getElem_drop, Fin.getElem_fin, Vector.getElem_toList]
        congr 1
        omega
  have e' : groupBytes (loadedDin B v) = (B ++ zeros (4 * ((B.length + 3) / 4) - B.length)) ++
      (v.toList.drop ((B.length + 3) / 4)).flatMap fun w => leBytes 4 w.toNat := by
    rw [groupBytes, bytesOf, e, List.flatMap_append]
    exact congrArg (· ++ _) h
  rw [e', slice_eq_take, List.append_assoc, List.take_left]

/-! Reading the results. -/

/-- `rddout n` after a command that put `out` in DOUT, `n` its length (R38, R88). -/
theorem Runs.rddout {s : State} (hr : s.rstN = true) (hp : s.pending = none) (out : List Byte) (ho : out.length ≤ 64)
    (hd : s.dout = doutOf out) : Runs s (rddout out.length) s (wordsOf out) [] := by
  have hb := (busy_eq_false s).mpr hp
  suffices h : ∀ n, Runs s ((List.range n).map fun j => Machine.hostRd (.dout (Fin.ofNat 16 j))) s
      ((List.range n).map fun j => s.dout[Fin.ofNat 16 j]) [] by
    have e : ((List.range ((out.length + 3) / 4)).map fun j => s.dout[Fin.ofNat 16 j]) = wordsOf out := by
      apply List.map_congr_left
      intro j hj
      have := List.mem_range.mp hj
      rw [← le32_groupBytes s.dout (Fin.ofNat 16 j), hd, groupBytes_doutOf _ ho, le32_append_zeros]
      congr 1
      show j % 16 = j
      omega
    rw [← e]
    exact h _
  intro n
  induction n with
  | zero => exact Runs.nil s
  | succ n ih =>
    rw [List.range_succ, List.map_append, List.map_append]
    have h := Runs.one (Takes.hostRd hr (r := .dout (Fin.ofNat 16 n)) (by simp [hb]))
    rw [doutWords_dout, tagWords_dout] at h
    exact ih.append h

/-- `rdtag` after a command that put `T` in TAG (R40, R88). -/
theorem Runs.rdtag {s : State} (hr : s.rstN = true) (hp : s.pending = none) (T : List Byte) (hT : T.length = 16)
    (ht : s.tag = tagOf T) : Runs s rdtag s [] (wordsOf T) := by
  have hb := (busy_eq_false s).mpr hp
  have one : ∀ j : Fin 4, Runs s [Machine.hostRd (.tag j)] s [] [le32 T j] := by
    intro j
    have h := Runs.one (Takes.hostRd hr (r := .tag j) (by simp [hb]))
    have hj := le32_groupBytes s.tag j
    rw [ht, groupBytes_tagOf _ hT] at hj
    rw [doutWords_tag, tagWords_tag] at h
    rw [hj, ← ht]
    exact h
  have h := (one 0).append ((one 1).append ((one 2).append (one 3)))
  have e : wordsOf T = [le32 T 0] ++ ([le32 T 1] ++ ([le32 T 2] ++ [le32 T 3])) := by
    rw [wordsOf, hT]
    rfl
  rw [e]
  exact h

/-- The bytes of the words of a string are the string, then the zero bytes that fill its last word. -/
theorem bytesOf_wordsOf (B : List Byte) : bytesOf (wordsOf B) = B ++ zeros (4 * ((B.length + 3) / 4) - B.length) := by
  have h := groupBytes_groupOfBytes ((B.length + 3) / 4) (B ++ zeros (4 * ((B.length + 3) / 4) - B.length))
    (by rw [List.length_append, length_zeros]; omega)
  rw [← h, groupBytes]
  congr 1
  simp only [wordsOf, groupOfBytes, Vector.toList_ofFn, le32_append_zeros]
  apply List.ext_getElem
  · simp
  · intro i h1 h2
    simp

/-- What `rddout` yields, its reads having given the words of `B` (R88). -/
theorem rddoutResult_wordsOf (B : List Byte) : rddoutResult B.length (wordsOf B) = B := by
  rw [rddoutResult, bytesOf_wordsOf, List.take_left]

/-- What a sequence of `rddout`s yields, one string after another. -/
theorem rddoutResults_cons (B : List Byte) (ns : List Nat) (ws : List Word) :
    rddoutResults (B.length :: ns) (wordsOf B ++ ws) = B :: rddoutResults ns ws := by
  rw [rddoutResults, ← length_wordsOf, List.take_left, List.drop_left, rddoutResult_wordsOf]

/-- A string that fills its words is the bytes of them. -/
theorem bytesOf_wordsOf_aligned (B : List Byte) (h : B.length % 4 = 0) : bytesOf (wordsOf B) = B := by
  rw [bytesOf_wordsOf, show 4 * ((B.length + 3) / 4) - B.length = 0 by omega]
  simp [zeros]

/-! Completed commands. -/

/-- What a command without an error at completion leaves. -/
theorem completed_noError {i : Instr} {s e : State} (h : effectOf i (accept i s) = noError e) :
    completed i s = { e with pending := none, done := true } := by
  rw [completed, h]
  rfl

/-- The input buffer has no part in acceptance (R102). -/
theorem issuable_din (i : Instr) (s : State) (v : Vector Word 16) : issuable i { s with din := v } = issuable i s := by
  cases i <;> rfl

/-! The MAC input. -/

theorem macInput_assoc (aad ct : List Byte) :
    macInput aad ct = (aad ++ pad16 aad) ++ ((ct ++ pad16 ct) ++ (leBytes 8 aad.length ++ leBytes 8 ct.length)) := by
  simp [macInput]

/-- Absorbing the two padded sections and then one whole chunk, part by part (R163, R165, R166). -/
theorem absorb_sections (r : BitVec 128) (aad ct l : List Byte) (h : l.length = 16) :
    absorb r 0 (chunks 16 ((aad ++ pad16 aad) ++ ((ct ++ pad16 ct) ++ l))) =
      chunkStep r (absorbPadded r (absorbPadded r 0 aad) ct) l := by
  rw [chunks_append 16 (by decide) _ _ (length_append_pad16 _), chunks_append 16 (by decide) _ _ (length_append_pad16 _),
    chunks_single 16 l (by omega) (by omega), absorb_append, absorb_append, ← absorbPadded_eq, ← absorbPadded_eq]
  simp only [absorb, List.foldl_cons, List.foldl_nil]

/-- The length block of a session that counted `aad` and `ct` is the one of the MAC input, modulo 2^64 each (R166, R35). -/
theorem lengthBytes_eq (s : State) (aad ct : List Byte) (ha : s.aadlen = BitVec.ofNat 64 aad.length)
    (hc : s.ctlen = BitVec.ofNat 64 ct.length) : s.lengthBytes = leBytes 8 aad.length ++ leBytes 8 ct.length := by
  have h : ∀ n : Nat, leBytes 8 (n % 2 ^ 64) = leBytes 8 n := fun n => leBytes_mod 8 n
  rw [State.lengthBytes, ha, hc, BitVec.toNat_ofNat, BitVec.toNat_ofNat, h, h]

end Sys2Proof.Machine
end

