-- ==== Sys2Proof/Tests/Slice0.lean ====
section
/-! SUPPORT. The model's own tests. Words are written out from the encoding of spec/30_encoding.md R80 to R82
(`w[31:15] = 0`, LEN, `w[7:5] = 0`, OPC); expected results are those of spec/95_test_vectors.md (the vector is named at each
test) or follow by hand from the rule named. The last part gives, for each obligation with hypotheses, a state and operands that
meet them. -/

namespace Sys2Proof.Tests

open Sys2Proof Sys2Proof.Machine

-- One test at a time: each keeps a thread and its stack while the kernel evaluates it.
set_option Elab.async false

/-! ## Helpers -/

/-- The state of a next outcome; the types of the other two have no use here (no step stops). -/
def next : Host.Outcome State Fault Refusal → Option State
  | .next t => some t
  | .fault _ => none
  | .refused _ => none

/-- Out of reset with a key and a nonce loaded. -/
def keyedWith (K N : List Byte) : State :=
  { State.reset with key := groupOfBytes 8 K, nonce := groupOfBytes 3 N, kmask := 0xFF#8, nmask := 0x7#3 }

/-- Out of reset with the zero key and nonce loaded. -/
def keyedIdle : State := keyedWith (zeros 32) (zeros 12)

def inPhase (p : Phase) : State := { keyedIdle with phase := p }

/-- The command `i` in flight. -/
def inFlight (i : Instr) (s : State) : State := { s with pending := some i }

def busyWith (i : Instr) : State := inFlight i keyedIdle

/-- `B` at the front of DIN. -/
def withDin (B : List Byte) (s : State) : State := { s with din := groupOfBytes 16 B }

/-- The one-time key `otk` loaded, nothing absorbed. -/
def withOtk (otk : List Byte) (s : State) : State := { s with polyR := otkR otk, polyS := otkS otk }

/-- What a property says of the state after the command in flight has completed. -/
def completes (i : Instr) (s : State) (p : State → Bool) : Bool :=
  match next (exec i (inFlight i s)) with
  | some t => p t
  | none => false

/-- What a property says of the state after one input. -/
def takes (i : Input) (s : State) (p : State → Bool) : Bool :=
  match next (step (s.facing i)) with
  | some t => p t
  | none => false

/-- `n` bytes that count up from `a`. -/
def count (a n : Nat) : List Byte := (List.range n).map fun j => BitVec.ofNat 8 (a + j)

/-- `nC` of spec/95. -/
def nC : List Byte := [0, 0, 0, 0, 0, 0, 0, 0x4a, 0, 0, 0, 0]
/-- `nA` of spec/95. -/
def nA : List Byte := [7, 0, 0, 0, 0x40, 0x41, 0x42, 0x43, 0x44, 0x45, 0x46, 0x47]
/-- `pkP` of spec/95. -/
def pkP : List Byte :=
  [0x85, 0xd6, 0xbe, 0x78, 0x57, 0x55, 0x6d, 0x33, 0x7f, 0x44, 0x52, 0xfe, 0x42, 0xd5, 0x06, 0xa8] ++
  [0x01, 0x03, 0x80, 0x8a, 0xfb, 0x0d, 0xb2, 0xfd, 0x4a, 0xbf, 0xf6, 0xaf, 0x41, 0x49, 0xf5, 0x1b]
/-- `hp` of spec/95. -/
def hp : List Byte := [0x68, 0x75, 0x6e, 0x74, 0x65, 0x72, 0x32] ++ List.replicate 25 0x19#8
/-- The ciphertext of V-L1-1. -/
def hpSealed : List Byte :=
  [0xf7, 0x0e, 0x87, 0x29, 0x64, 0x8f, 0x72, 0xa3, 0x0c, 0xfb, 0x96, 0xe2, 0x2f, 0x98, 0x13, 0xb7] ++
  [0xd8, 0xd9, 0x91, 0x26, 0x10, 0x18, 0x77, 0xc7, 0xc4, 0x93, 0xc9, 0x9e, 0x4c, 0x9b, 0x1a, 0xbc]
/-- The tag of V-L1-1. -/
def hpTag : List Byte := [0xec, 0x96, 0x8c, 0x69, 0x49, 0x6e, 0x4f, 0x3a, 0x87, 0x07, 0xce, 0x5d, 0x55, 0x4b, 0x5a, 0xb6]
/-- The one-time key of V-AE-1. -/
def otkZ : List Byte :=
  [0x76, 0xb8, 0xe0, 0xad, 0xa0, 0xf1, 0x3d, 0x90, 0x40, 0x5d, 0x6a, 0xe5, 0x53, 0x86, 0xbd, 0x28] ++
  [0xbd, 0xd2, 0x19, 0xb8, 0xa0, 0x8d, 0xed, 0x1a, 0xa8, 0x36, 0xef, 0xcc, 0x8b, 0x77, 0x0d, 0xc7]
/-- The one-time key of V-AE-2. -/
def otkA : List Byte :=
  [0x7b, 0xac, 0x2b, 0x25, 0x2d, 0xb4, 0x47, 0xaf, 0x09, 0xb6, 0x7a, 0x55, 0xa4, 0xe9, 0x55, 0x84] ++
  [0x0a, 0xe1, 0xd6, 0x73, 0x10, 0x75, 0xd9, 0xeb, 0x2a, 0x93, 0x75, 0x78, 0x3e, 0xd5, 0x53, 0xff]

/-! ## Decoding -/

theorem test_decode_chachaBlock : decode (0#17 ++ 0#7 ++ 0#3 ++ 0b00001#5) = .ok (.chachaBlock 0#7) := by decide
theorem test_decode_chachaXor : decode (0#17 ++ 0b1000000#7 ++ 0#3 ++ 0b00010#5) = .ok (.chachaXor 64#7) := by decide
theorem test_decode_polyInit : decode (0#17 ++ 0b0100000#7 ++ 0#3 ++ 0b00011#5) = .ok (.polyInit 32#7) := by decide
theorem test_decode_polyUpdate : decode (0#17 ++ 0b0100010#7 ++ 0#3 ++ 0b00100#5) = .ok (.polyUpdate 34#7) := by decide
theorem test_decode_polyFinal : decode (0#17 ++ 0#7 ++ 0#3 ++ 0b00101#5) = .ok (.polyFinal 0#7) := by decide
theorem test_decode_aeadSealInit : decode (0#17 ++ 0#7 ++ 0#3 ++ 0b01000#5) = .ok (.aeadSealInit 0#7) := by decide
theorem test_decode_aeadOpenInit : decode (0#17 ++ 0#7 ++ 0#3 ++ 0b01001#5) = .ok (.aeadOpenInit 0#7) := by decide
theorem test_decode_aeadAad : decode (0#17 ++ 0b0001100#7 ++ 0#3 ++ 0b01010#5) = .ok (.aeadAad 12#7) := by decide
theorem test_decode_aeadEnc : decode (0#17 ++ 0b0110010#7 ++ 0#3 ++ 0b01011#5) = .ok (.aeadEnc 50#7) := by decide
theorem test_decode_aeadTag : decode (0#17 ++ 0#7 ++ 0#3 ++ 0b01100#5) = .ok (.aeadTag 0#7) := by decide
theorem test_decode_aeadAbsorb : decode (0#17 ++ 0b0000101#7 ++ 0#3 ++ 0b01101#5) = .ok (.aeadAbsorb 5#7) := by decide
theorem test_decode_aeadVerify : decode (0#17 ++ 0#7 ++ 0#3 ++ 0b01110#5) = .ok (.aeadVerify 0#7) := by decide
theorem test_decode_aeadDecrypt : decode (0#17 ++ 0b0100000#7 ++ 0#3 ++ 0b01111#5) = .ok (.aeadDecrypt 32#7) := by decide
theorem test_decode_abort : decode (0#17 ++ 0#7 ++ 0#3 ++ 0b11110#5) = .ok (.abort 0#7) := by decide
theorem test_decode_zeroize : decode (0#17 ++ 0#7 ++ 0#3 ++ 0b11111#5) = .ok (.zeroize 0#7) := by decide

/-- An illegal LEN is a free field to the decoder, an error to the issue logic (R83, R85). -/
theorem test_decode_len_is_free : decode 0x00007F1F#32 = .ok (.zeroize 127#7) := by decide
/-- V-ER-3: the all-zero word. -/
theorem test_decode_zero_word : decode 0x00000000#32 = .error (.unassignedOpcode 0#5) := by decide
/-- V-ER-4 and V-ER-5: the lowest reserved bit of each reserved field; then the highest. -/
theorem test_decode_reserved_bits :
    decode 0x00000021#32 = .error .reservedBits ∧ decode 0x00008002#32 = .error .reservedBits ∧
    decode 0x00000081#32 = .error .reservedBits ∧ decode 0x80000002#32 = .error .reservedBits := by decide
/-- R84: the unassigned opcodes next to the assigned ones. -/
theorem test_decode_unassigned :
    decode 0x00000006#32 = .error (.unassignedOpcode 6#5) ∧ decode 0x00000007#32 = .error (.unassignedOpcode 7#5) ∧
    decode 0x00000010#32 = .error (.unassignedOpcode 16#5) ∧ decode 0x0000001D#32 = .error (.unassignedOpcode 29#5) := by
  decide
/-- R82: a word of the encoder. -/
theorem test_encode_polyUpdate : encode (.polyUpdate 34#7) = 0x00002204#32 := by decide
/-- The numbering of spec/opcode_table.json: one 32-bit word. -/
theorem test_decodeTableWord : decodeTableWord 32 0x200F = some (.aeadDecrypt 32#7) := by decide

/-! ## Well-formedness -/

theorem test_wf_refuses_nonzero_len : (Instr.aeadVerify 1#7).wf = false ∧ (Instr.aeadVerify 0#7).wf = true := by decide
theorem test_wf_refuses_wrong_key_len :
    (Instr.polyInit 31#7).wf = false ∧ (Instr.polyInit 33#7).wf = false ∧ (Instr.polyInit 32#7).wf = true := by decide
theorem test_wf_refuses_too_much_data : (Instr.aeadEnc 65#7).wf = false ∧ (Instr.aeadEnc 64#7).wf = true := by decide

/-! ## Commands, one completion step each -/

/-- V-L1-3, V-CC-7. -/
theorem test_chachaBlock :
    completes (.chachaBlock 0#7) { keyedWith (count 0 32) nC with counter := 1#32 } (fun t =>
      t.dout[0] == 0xF3514F22#32 && t.dout[1] == 0xE1D91B40#32 && t.dout[15] == 0xB7417DF0#32 && t.counter == 1#32 &&
      t.statusWord == 0x00030002#32) = true := by decide +kernel

/-- V-CC-6: the counter wraps. -/
theorem test_chachaXor_wraps :
    completes (.chachaXor 64#7) { keyedIdle with counter := 0xFFFFFFFF#32 } (fun t =>
      t.dout[0] == 0x09CDE4AC#32 && t.counter == 0#32 && t.statusWord == 0x00030012#32) = true := by decide +kernel

/-- V-CC-5: LEN = 0 clears DOUT and consumes no block. -/
theorem test_chachaXor_empty :
    completes (.chachaXor 0#7) { keyedIdle with counter := 1#32, dout := Vector.replicate 16 7#32 } (fun t =>
      t.dout == Vector.replicate 16 0#32 && t.counter == 1#32 && t.statusWord == 0x00030002#32) = true := by decide +kernel

/-- V-PL-1: r is clamped, s is not. -/
theorem test_polyInit :
    completes (.polyInit 32#7) (withDin pkP State.reset) (fun t =>
      t.polyR == 0x0806D5400E52447C036D555408BED685#128 && t.polyS == 0x1BF54941AFF6BF4AFDB20DFB8A800301#128 &&
      t.acc == 0 && t.statusWord == 0x00001002#32) = true := by decide +kernel

/-- V-PL-8: one byte closes the message; the tag that then comes out. -/
theorem test_polyUpdate_tail :
    completes (.polyUpdate 1#7) (withDin [0x41] (withOtk pkP { State.reset with phase := .mac })) (fun t =>
      t.statusWord == 0x00002002#32 && tagBytes t.acc t.polyS ==
        [0xd0, 0xff, 0xca, 0x81, 0x5a, 0x0c, 0xca, 0x49, 0xcb, 0x9e, 0x1e, 0xa5, 0x93, 0xae, 0x86, 0x2c]) = true := by
  decide +kernel

/-- V-PL-9: 64 bytes leave the message open. -/
theorem test_polyUpdate_full :
    completes (.polyUpdate 64#7) (withDin (count 0 64) (withOtk pkP { State.reset with phase := .mac })) (fun t =>
      t.statusWord == 0x00001002#32 && tagBytes t.acc t.polyS ==
        [0x2a, 0x7b, 0xeb, 0xad, 0xae, 0x82, 0x9f, 0x59, 0x5b, 0xbd, 0xe2, 0xcb, 0x6c, 0xca, 0x72, 0xa9]) = true := by
  decide +kernel

/-- V-PL-2: the tag of the empty message is S; the one-time key is gone (R43). -/
theorem test_polyFinal :
    completes (.polyFinal 0#7) (withOtk pkP { State.reset with phase := .mac }) (fun t =>
      t.tag[0] == 0x8A800301#32 && t.tag[3] == 0x1BF54941#32 && t.polyR == 0#128 && t.polyS == 0#128 &&
      t.statusWord == 0x00000002#32) = true := by decide +kernel

/-- V-AE-1, V-AE-10: the one-time key of the counter-0 block; COUNTER becomes 1. -/
theorem test_aeadSealInit :
    completes (.aeadSealInit 0#7) { keyedIdle with counter := 0xFFFFFFFF#32 } (fun t =>
      t.polyR == 0x08BD8650056A5D40003DF1A00DE0B876#128 && t.polyS == 0xC70D778BCCEF36A81AED8DA0B819D2BD#128 &&
      t.counter == 1#32 && t.statusWord == 0x00034002#32) = true := by decide +kernel

/-- V-AE-2's one-time key; RTAG stays (R168). -/
theorem test_aeadOpenInit :
    completes (.aeadOpenInit 0#7) { keyedWith (count 0x80 32) nA with rmask := 0xF#4, rtag := Vector.replicate 4 9#32 }
      (fun t =>
        t.polyR == 0x0455E9A4057AB6080F47B42C052BAC7B#128 && t.polyS == 0xFF53D53E7875932AEBD9751073D6E10A#128 &&
        t.rtag == Vector.replicate 4 9#32 && t.statusWord == 0x00078002#32) = true := by decide +kernel

/-- V-AE-3: 12 bytes close the AAD; with the lengths, the tag that then comes out. -/
theorem test_aeadAad :
    completes (.aeadAad 12#7) (withDin (count 0x50 4 ++ count 0xc0 8) (withOtk otkA (inPhase .sealAad))) (fun t =>
      t.aadlen == 12#64 && t.statusWord == 0x00035002#32 && t.aeadTag ==
        [0xe6, 0x22, 0xe5, 0x64, 0x7a, 0x38, 0xd9, 0x67, 0xa7, 0xec, 0xbc, 0xb4, 0x6c, 0x7f, 0x67, 0x5c]) = true := by
  decide +kernel

/-- V-AE-4: 16 bytes leave the AAD open. -/
theorem test_aeadAad_full :
    completes (.aeadAad 16#7) (withOtk otkZ (inPhase .sealAad)) (fun t =>
      t.aadlen == 16#64 && t.statusWord == 0x00034002#32) = true := by decide +kernel

/-- V-L1-1 (the seal): ciphertext, counter, length, and the tag that then comes out. -/
theorem test_aeadEnc :
    completes (.aeadEnc 32#7)
      (withDin hp (withOtk otkA { keyedWith (count 0x80 32) nA with phase := .sealAad, counter := 1#32 })) (fun t =>
        groupBytes t.dout == hpSealed ++ zeros 32 && t.counter == 2#32 && t.ctlen == 32#64 &&
        t.statusWord == 0x00036002#32 && t.aeadTag == hpTag) = true := by decide +kernel

/-- V-AE-1: with LEN = 0 the text ends and COUNTER stays 1. -/
theorem test_aeadEnc_empty :
    completes (.aeadEnc 0#7) (withOtk otkZ { inPhase .sealAad with counter := 1#32 }) (fun t =>
      t.counter == 1#32 && t.ctlen == 0#64 && t.statusWord == 0x00036002#32) = true := by decide +kernel

/-- V-AE-1: the tag of the empty seal. -/
theorem test_aeadTag :
    completes (.aeadTag 0#7) (withOtk otkZ (inPhase .sealAad)) (fun t =>
      groupBytes t.tag ==
        [0x4e, 0xb9, 0x72, 0xc9, 0xa8, 0xfb, 0x3a, 0x1b, 0x38, 0x2b, 0xb4, 0xd3, 0x6f, 0x5f, 0xfa, 0xd1] &&
      t.statusWord == 0x00030002#32) = true := by decide +kernel

/-- V-L1-1 (the open): the tag that the absorbed ciphertext gives; DOUT and COUNTER stay. -/
theorem test_aeadAbsorb :
    completes (.aeadAbsorb 32#7) (withDin hpSealed (withOtk otkA { inPhase .openAad with counter := 1#32 })) (fun t =>
      t.aeadTag == hpTag && t.ctlen == 32#64 && t.counter == 1#32 && t.dout == Vector.replicate 16 0#32 &&
      t.statusWord == 0x0003A002#32) = true := by decide +kernel

/-- V-AE-5: 64 bytes leave the text open. -/
theorem test_aeadAbsorb_full :
    completes (.aeadAbsorb 64#7) (withOtk otkA (inPhase .openAad)) (fun t =>
      t.ctlen == 64#64 && t.statusWord == 0x00039002#32) = true := by decide +kernel

/-- V-AE-8: the received tag of V-AE-1 matches. -/
theorem test_aeadVerify_match :
    completes (.aeadVerify 0#7)
      (withOtk otkZ { inPhase .openTail with
        rmask := 0xF#4
        rtag := groupOfBytes 4
          [0x4e, 0xb9, 0x72, 0xc9, 0xa8, 0xfb, 0x3a, 0x1b, 0x38, 0x2b, 0xb4, 0xd3, 0x6f, 0x5f, 0xfa, 0xd1] })
      (fun t => t.statusWord == 0x0003B00A#32 && t.counter == 1#32 && t.rtag == Vector.replicate 4 0#32) = true := by
  decide +kernel

/-- V-AE-7: the right words, one of them never written: no match; DONE stays as it was. -/
theorem test_aeadVerify_incomplete :
    completes (.aeadVerify 0#7)
      (withOtk otkZ { inPhase .openTail with
        rmask := 0x7#4
        rtag := groupOfBytes 4
          [0x4e, 0xb9, 0x72, 0xc9, 0xa8, 0xfb, 0x3a, 0x1b, 0x38, 0x2b, 0xb4, 0xd3, 0x6f, 0x5f, 0xfa, 0xd1] })
      (fun t => t.statusWord == 0x00030704#32 && t.rtag == Vector.replicate 4 0#32) = true := by decide +kernel

/-- V-L1-1 (the open): the plaintext; fewer than 64 bytes end the session. -/
theorem test_aeadDecrypt :
    completes (.aeadDecrypt 32#7)
      (withDin hpSealed { keyedWith (count 0x80 32) nA with phase := .openDecrypt, counter := 1#32, authOk := true })
      (fun t => groupBytes t.dout == hp ++ zeros 32 && t.counter == 2#32 && t.statusWord == 0x0003000A#32) = true := by
  decide +kernel

/-- V-AE-5: LEN = 0 ends the session and leaves COUNTER at 2. -/
theorem test_aeadDecrypt_empty :
    completes (.aeadDecrypt 0#7) { inPhase .openDecrypt with counter := 2#32, authOk := true } (fun t =>
      t.counter == 2#32 && t.statusWord == 0x0003000A#32) = true := by decide +kernel

/-- V-SC-1. -/
theorem test_abort :
    completes (.abort 0#7)
      (withOtk otkA { inPhase .sealData with counter := 2#32, ctlen := 64#64, dout := Vector.replicate 16 5#32 }) (fun t =>
        t.statusWord == 0x00030002#32 && t.counter == 2#32 && t.ctlen == 64#64 && t.dout == Vector.replicate 16 5#32 &&
        t.polyS == 0#128) = true := by decide +kernel

/-- V-SC-2: ERR, ERRCODE and CTRL stay; the data is gone. -/
theorem test_zeroize :
    completes (.zeroize 0#7)
      { keyedWith (count 0 32) nC with
        ie := true, eie := true, err := true, errcode := .illegal, dout := Vector.replicate 16 5#32 } (fun t =>
        t.statusWord == 0x00000206#32 && t.ctrlWord == 3#32 && t.nonce[0] == 0#32 && t.dout[0] == 0#32 && t.irq) = true := by
  decide +kernel

/-! ## The window, one input each -/

/-- V-ER-1, V-ER-2: no key; then no nonce. -/
theorem test_no_key : takes (hostWr .cmd 1#32) State.reset (fun t => t.statusWord == 0x00000504#32) = true := by
  decide +kernel
theorem test_no_nonce :
    takes (hostWr .cmd 1#32) { State.reset with kmask := 0xFF#8 } (fun t => t.statusWord == 0x00010604#32) = true := by
  decide +kernel
/-- V-ER-12, V-ER-13: BADLEN outranks SEQUENCE, which outranks KEY. -/
theorem test_badlen_outranks : takes (hostWr .cmd 0x10C#32) State.reset (fun t => t.statusWord == 0x00000304#32) = true := by
  decide +kernel
theorem test_sequence_outranks :
    takes (hostWr .cmd 0x40A#32) State.reset (fun t => t.statusWord == 0x00000404#32) = true := by decide +kernel
/-- V-ER-9: a locked key. -/
theorem test_locked :
    takes (hostWr (.key 0) 5#32) { inPhase .sealAad with done := true } (fun t =>
      t.statusWord == 0x00034806#32 && t.key[0] == 0#32) = true := by decide +kernel
/-- V-ER-10: an input written while busy. -/
theorem test_busy_write :
    takes (hostWr (.din 0) 1#32) (busyWith (.chachaBlock 0#7)) (fun t =>
      t.statusWord == 0x00030105#32 && t.din[0] == 0#32) = true := by decide +kernel
/-- V-ER-11: a misaligned read. -/
theorem test_misaligned_read :
    takes (.read 0x002#9 4) State.reset (fun t =>
      t.statusWord == 0x00000904#32 && t.transfers == [.read 0x002#9 0#32 Config.busErrorResponse]) = true := by
  simp [takes, next, step, State.facing, perform, hostRead, misaccess, answer, raiseError, State.reset, State.statusWord,
    State.busy, State.keyv, State.noncev, State.rtagv, ErrCode.code, Phase.code]
/-- V-MM-1, V-MM-3, V-MM-5, V-MM-6, V-MM-7. -/
theorem test_window_values :
    regValue .id State.reset = 0x30324343#32 ∧ regValue (.key 0) (keyedWith (count 0 32) nC) = 0#32 ∧
    takes (hostWr .id 5#32) State.reset (fun t => t.statusWord == 0#32 && regValue .id t == 0x30324343#32) = true ∧
    takes (hostWr .ctrl 0x7FFFFFFF#32) State.reset (fun t => t.ctrlWord == 3#32) = true ∧
    takes (hostWr (.din 5) 0xCAFEF00D#32) State.reset (fun t => regValue (regAt 0x114#9) t == 0xCAFEF00D#32) = true := by
  decide +kernel
/-- V-RS-1: a soft reset while busy. -/
theorem test_soft_reset :
    takes (hostWr .ctrl 0x80000000#32) (busyWith (.chachaBlock 0#7)) (fun t =>
      t.statusWord == 0#32 && t.pending == none && t.ctrlWord == 0#32) = true := by decide +kernel
/-- V-IQ-1: the level falls when DONE is cleared. -/
theorem test_irq :
    ({ State.reset with ie := true, done := true } : State).irq = true ∧
    takes (hostWr .status 2#32) { State.reset with ie := true, done := true } (fun t => !t.irq) = true := by decide +kernel
/-- What the host places as the next command is what the next step takes (log entry 4). -/
theorem test_withFetchWord :
    step (keyedIdle.withFetchWord 32 0x00000001) = exec (.chachaBlock 0#7) (keyedIdle.wrote .cmd) := by rfl

/-- R88: with nothing in flight a wait ends at its first poll. -/
theorem test_wait_idle :
    (next (hostWait 3 State.reset)).map (fun t => t.transfers.length) = some 1 := by decide +kernel
/-- R88: with a command in flight the polls go on until BUSY reads 0: two before the turn, one after. -/
theorem test_wait_busy :
    (next (hostWait 2 (busyWith (.abort 0#7)))).map (fun t => (t.transfers.length, t.lastRead)) =
      some (3, 0x00030002#32) := by decide +kernel
/-- R88: the first 6 bytes of the words of V-CC-6's DOUT0 and DOUT1. -/
theorem test_rddoutResult :
    rddoutResult 6 [0x09CDE4AC#32, 0xD19194E2#32] = [0xac, 0xe4, 0xcd, 0x09, 0xe2, 0x94] := by decide

/-! ## Witnesses: states and operands that meet the hypotheses of each obligation -/

/-- Commands of the ChaCha20 and Poly1305 families, each in a phase that admits it, with a LEN at an end of its range. -/
def legalRaw : List (Phase × Instr) :=
  [(Phase.idle, Instr.chachaBlock 0#7), (Phase.macTail, Instr.chachaXor 64#7), (Phase.idle, Instr.chachaXor 0#7),
   (Phase.idle, Instr.polyInit 32#7), (Phase.mac, Instr.polyUpdate 64#7), (Phase.mac, Instr.polyUpdate 0#7),
   (Phase.mac, Instr.polyFinal 0#7), (Phase.macTail, Instr.polyFinal 0#7), (Phase.idle, Instr.aeadSealInit 0#7),
   (Phase.idle, Instr.aeadOpenInit 0#7), (Phase.openData, Instr.abort 0#7), (Phase.mac, Instr.zeroize 0#7)]

/-- The same for the commands inside an AEAD session. -/
def legalAead : List (Phase × Instr) :=
  [(Phase.sealAad, Instr.aeadAad 64#7), (Phase.openAad, Instr.aeadAad 0#7), (Phase.sealAad, Instr.aeadEnc 64#7),
   (Phase.sealData, Instr.aeadEnc 0#7), (Phase.sealTail, Instr.aeadTag 0#7), (Phase.openAad, Instr.aeadAbsorb 64#7),
   (Phase.openData, Instr.aeadAbsorb 0#7), (Phase.openTail, Instr.aeadVerify 0#7),
   (Phase.openDecrypt, Instr.aeadDecrypt 64#7), (Phase.openDecrypt, Instr.aeadDecrypt 0#7)]

def legalCommands : List (Phase × Instr) := legalRaw ++ legalAead

theorem witness_DecodeAndEncodeAgree : decode 0x00004002#32 = .ok (.chachaXor 64#7) := by decide

theorem witness_IllegalWordRaisesIllegal :
    State.reset.rstN = true ∧ State.reset.busy = false ∧
    (0x00000006#32).extractLsb' 0 5 ∈ unassignedOpcodes ∧ (0x0000001D#32).extractLsb' 0 5 ∈ unassignedOpcodes ∧
    (0x00000021#32).extractLsb' 5 3 ≠ 0#3 ∧ (0x00008002#32).extractLsb' 15 17 ≠ 0#17 := by decide

theorem witness_WrongLengthRaisesBadlen :
    State.reset.pending = none ∧ lengthError (.chachaBlock 1#7) ∧ lengthError (.polyInit 31#7) ∧ lengthError (.polyInit 33#7) ∧
    lengthError (.chachaXor 65#7) ∧ lengthError (.aeadDecrypt 127#7) ∧ ¬lengthError (.aeadDecrypt 64#7) := by
  unfold lengthError; decide

/-- One state and word for each outcome of the checks, in their order. -/
theorem witness_ChecksApplyInOrder :
    (busyWith (.abort 0#7)).rstN = true ∧ (busyWith (.abort 0#7)).busy = true ∧
    State.reset.rstN = true ∧ State.reset.busy = false ∧ decode 0#32 = .error (.unassignedOpcode 0#5) ∧
    decode 0x10C#32 = .ok (.aeadTag 1#7) ∧ (Instr.aeadTag 1#7).wf = false ∧
    (Instr.aeadTag 0#7).wf = true ∧ admitted (.aeadTag 0#7) State.reset.phase = false ∧
    admitted (.chachaBlock 0#7) State.reset.phase = true ∧ needsKeyNonce (.chachaBlock 0#7) = true ∧
    State.reset.keyv = false ∧ ({ State.reset with kmask := 0xFF#8 } : State).keyv = true ∧
    ({ State.reset with kmask := 0xFF#8 } : State).noncev = false ∧
    keyedIdle.keyv = true ∧ keyedIdle.noncev = true := by decide

theorem witness_AcceptanceSetsPendingOnly :
    ∀ c ∈ legalCommands, (inPhase c.1).pending = none ∧ issuable c.2 (inPhase c.1) = true := by decide

theorem witness_RejectionChangesOnlyErr :
    State.reset.pending = none ∧
    exec (.polyUpdate 16#7) State.reset = .next (raiseError .sequence State.reset) ∧
    (raiseError .sequence State.reset).pending = none := ⟨rfl, rfl, rfl⟩

theorem witness_StepRunsTheCommand :
    State.reset.rstN = true ∧ State.reset.busy = false ∧ decode 0x00002003#32 = .ok (.polyInit 32#7) ∧
    (busyWith (.chachaXor 64#7)).rstN = true ∧ (busyWith (.chachaXor 64#7)).pending = some (.chachaXor 64#7) ∧
    (busyWith (.chachaXor 64#7)).inputs = [] := by decide

/-- One offset for each kind of register the statement tells apart. -/
theorem witness_BusyRefusesInputWrites :
    (busyWith (.chachaXor 64#7)).rstN = true ∧ (busyWith (.chachaXor 64#7)).busy = true ∧
    (∀ off ∈ ([0x000, 0x004, 0x008, 0x00C, 0x010, 0x040, 0x05C, 0x060, 0x068, 0x080, 0x08C, 0x100, 0x13C, 0x1FC] :
      List (BitVec 9)), off.toNat % 4 = 0) ∧
    (0x80000000#32).getLsbD 31 = true ∧ (0x7FFFFFFF#32).getLsbD 31 = false := by decide +kernel

theorem witness_BusyReadsOfResultsAreFree :
    (busyWith (.chachaXor 64#7)).rstN = true ∧ (busyWith (.chachaXor 64#7)).busy = true ∧ Reg.dout 15 ≠ .reserved ∧
    (Reg.dout 15).isResult = true ∧ Reg.status ≠ .reserved ∧ Reg.status.isResult = false := by decide

theorem witness_ReadsReturnContentsAndChangeNothing :
    keyedIdle.rstN = true ∧ keyedIdle.busy = false ∧ (0x000#9).toNat % 4 = 0 ∧ (0x1FC#9).toNat % 4 = 0 := by decide

theorem witness_RefusedAccessRaisesBus :
    State.reset.rstN = true ∧ (0x001#9).toNat % 4 ≠ 0 ∧ (0x1FF#9).toNat % 4 ≠ 0 ∧ (2 : Nat) ≠ 4 := by decide

/-- Both ends of every reserved range. -/
theorem witness_ReservedSpaceReadsZeroIgnoresWrites :
    State.reset.rstN = true ∧ (busyWith (.abort 0#7)).rstN = true ∧
    ∀ off ∈ ([0x014, 0x028, 0x03C, 0x06C, 0x090, 0x0FC, 0x180, 0x1FC] : List (BitVec 9)),
      off.toNat % 4 = 0 ∧ reservedOffset off := by
  unfold reservedOffset; decide +kernel

theorem witness_RegisterMapIsTheSpecs :
    (0x17C#9).toNat % 4 = 0 ∧ regAt 0x17C#9 ≠ .reserved ∧ (Reg.tag 3) ≠ .reserved ∧ reservedOffset 0x180#9 ∧
    ¬reservedOffset 0x17C#9 := by
  unfold reservedOffset; decide +kernel

theorem witness_IdIsHardwired : State.reset.rstN = true := rfl

theorem witness_KeyAndNonceAreLoaded :
    (inPhase .macTail).rstN = true ∧ (inPhase .macTail).busy = false ∧ (inPhase .macTail).phase.isAead = false ∧
    (count 0 32).length = 32 ∧ nC.length = 12 := by decide

/-- The empty string, a partial word, and all of DIN. -/
theorem witness_InputBufferIsLoaded :
    State.reset.rstN = true ∧ State.reset.busy = false ∧ ([] : List Byte).length ≤ 64 ∧ (count 0 5).length ≤ 64 ∧
    (count 0 64).length ≤ 64 := by decide

theorem witness_ReceivedTagIsLoaded :
    (inPhase .openTail).rstN = true ∧ (inPhase .openTail).busy = false ∧ hpTag.length = 16 := by decide

/-- Every AEAD phase, and every other. -/
theorem witness_AeadPhaseLocksKeyNonceCounter :
    (∀ p ∈ ([.sealAad, .sealData, .sealTail, .openAad, .openData, .openTail, .openDecrypt] : List Phase),
      (inPhase p).rstN = true ∧ (inPhase p).busy = false ∧ (inPhase p).phase.isAead = true) ∧
    (∀ p ∈ ([.idle, .mac, .macTail] : List Phase),
      (inPhase p).rstN = true ∧ (inPhase p).busy = false ∧
      ((inPhase p).phase = .idle ∨ (inPhase p).phase = .mac ∨ (inPhase p).phase = .macTail)) := by decide

theorem witness_StatusWriteClearsChosenBits : (busyWith (.abort 0#7)).rstN = true := rfl

theorem witness_InterruptIsALevel :
    State.reset.rstN = true ∧ State.reset.busy = false ∧ (0x7FFFFFFF#32).getLsbD 31 = false ∧
    ({ State.reset with eie := true, err := true, errcode := .bus } : State).irq = true := by decide

theorem witness_SoftResetAtAnyTime :
    (busyWith (.zeroize 0#7)).rstN = true ∧ (0x80000000#32).getLsbD 31 = true ∧ (0xFFFFFFFF#32).getLsbD 31 = true := by decide

theorem witness_ResetDiscardsThePendingCommand :
    (busyWith (.aeadSealInit 0#7)).rstN = true ∧ (busyWith (.aeadSealInit 0#7)).busy = true ∧
    (0x80000000#32).getLsbD 31 = true := by decide

theorem witness_ResetValuesRead : (0x000#9).toNat % 4 = 0 ∧ (0x1FC#9).toNat % 4 = 0 := by decide

/-- A command that completes with DONE; a verify that raises AUTH; nothing in flight. -/
theorem witness_CompletionEndsTheCommand :
    (busyWith (.abort 0#7)).rstN = true ∧ (busyWith (.abort 0#7)).pending = some (.abort 0#7) ∧
    (inFlight (.aeadVerify 0#7) (inPhase .openTail)).pending = some (.aeadVerify 0#7) ∧
    (inFlight (.aeadVerify 0#7) (inPhase .openTail)).tagMatches = false ∧
    keyedIdle.rstN = true ∧ keyedIdle.pending = none := by decide +kernel

theorem witness_ChachaBlockResult : (busyWith (.chachaBlock 0#7)).pending = some (.chachaBlock 0#7) := rfl
theorem witness_ChachaXorResult :
    (busyWith (.chachaXor 0#7)).pending = some (.chachaXor 0#7) ∧ (busyWith (.chachaXor 64#7)).pending = some (.chachaXor 64#7) ∧
    (0#7).toNat ≤ 64 ∧ (64#7).toNat ≤ 64 := by decide
theorem witness_PolyInitResult : (busyWith (.polyInit 32#7)).pending = some (.polyInit 32#7) := rfl
theorem witness_PolyUpdateResult :
    (1 ≤ (zeros 1).length ∧ (zeros 1).length ≤ 16) ∧ (1 ≤ (zeros 16).length ∧ (zeros 16).length ≤ 16) ∧
    (inFlight (.polyUpdate 63#7) (inPhase .mac)).pending = some (.polyUpdate 63#7) ∧ (63#7).toNat ≤ 64 ∧
    (inFlight (.polyUpdate 64#7) (inPhase .mac)).pending = some (.polyUpdate 64#7) ∧ (64#7).toNat ≤ 64 := by decide
theorem witness_PolyFinalResult : (inFlight (.polyFinal 0#7) (inPhase .mac)).pending = some (.polyFinal 0#7) := rfl
theorem witness_AeadInitResult :
    (busyWith (.aeadSealInit 0#7)).pending = some (.aeadSealInit 0#7) ∧
    (busyWith (.aeadOpenInit 0#7)).pending = some (.aeadOpenInit 0#7) := by decide
theorem witness_AeadAadResult :
    (inFlight (.aeadAad 12#7) (inPhase .openAad)).pending = some (.aeadAad 12#7) ∧ (12#7).toNat ≤ 64 ∧
    (inFlight (.aeadAad 64#7) (inPhase .sealAad)).pending = some (.aeadAad 64#7) ∧ (64#7).toNat ≤ 64 := by decide
theorem witness_AeadEncResult :
    (inFlight (.aeadEnc 0#7) (inPhase .sealAad)).pending = some (.aeadEnc 0#7) ∧ (0#7).toNat ≤ 64 ∧
    (inFlight (.aeadEnc 64#7) (inPhase .sealData)).pending = some (.aeadEnc 64#7) ∧ (64#7).toNat ≤ 64 := by decide
theorem witness_AeadTagResult : (inFlight (.aeadTag 0#7) (inPhase .sealTail)).pending = some (.aeadTag 0#7) := rfl
theorem witness_AeadAbsorbResult :
    (inFlight (.aeadAbsorb 0#7) (inPhase .openAad)).pending = some (.aeadAbsorb 0#7) ∧ (0#7).toNat ≤ 64 ∧
    (inFlight (.aeadAbsorb 64#7) (inPhase .openData)).pending = some (.aeadAbsorb 64#7) ∧ (64#7).toNat ≤ 64 := by decide
/-- A received tag that matches (S, with r = 0: R146) and one that does not. -/
theorem witness_AeadVerifyResult :
    (let s := inFlight (.aeadVerify 0#7) { inPhase .openTail with rmask := 0xF#4 }
     s.pending = some (.aeadVerify 0#7) ∧ groupBytes s.rtag = leBytes 16 ((chunkStep s.polyR s.acc
        (leBytes 8 s.aadlen.toNat ++ leBytes 8 s.ctlen.toNat) + s.polyS.toNat) % 2 ^ 128) ∧
      ∀ j : Fin 4, s.rmask.getLsbD j = true) ∧
    (inFlight (.aeadVerify 0#7) (inPhase .openTail)).pending = some (.aeadVerify 0#7) ∧
    ¬∀ j : Fin 4, (inFlight (.aeadVerify 0#7) (inPhase .openTail)).rmask.getLsbD j = true := by decide +kernel
theorem witness_AeadDecryptResult :
    (inFlight (.aeadDecrypt 63#7) (inPhase .openDecrypt)).pending = some (.aeadDecrypt 63#7) ∧ (63#7).toNat ≤ 64 ∧
    (inFlight (.aeadDecrypt 64#7) (inPhase .openDecrypt)).pending = some (.aeadDecrypt 64#7) ∧ (64#7).toNat ≤ 64 := by decide
theorem witness_AbortResult : (inFlight (.abort 0#7) (inPhase .sealData)).pending = some (.abort 0#7) := rfl
theorem witness_ZeroizeResult : (busyWith (.zeroize 0#7)).pending = some (.zeroize 0#7) := rfl

theorem witness_PhaseTransitionTable :
    (∀ c ∈ legalCommands, (inFlight c.2 (inPhase c.1)).pending = some c.2 ∧ issuable c.2 (inFlight c.2 (inPhase c.1)) = true) ∧
    State.reset.pending = none ∧ exec (.polyFinal 0#7) State.reset = .next (raiseError .sequence State.reset) :=
  ⟨by decide, rfl, rfl⟩

/-- An open in progress that meets the invariant. -/
theorem witness_openAad_inv : Inv (inPhase .openAad) where
  acc_lt := by decide
  r_clamped := by decide
  errcode_iff := by decide
  pending_ok := fun _ h => by cases h
  aead_keyed := by decide
  otk_gone := by decide
  tag_clear := by decide
  decrypt_verified := by decide
  auth_clear := by decide
  no_plaintext := by decide
  held_in_reset := by decide

theorem witness_EveryStepKeepsTheInvariant : Inv (inPhase .openAad) ∧ step (inPhase .openAad) = .next (inPhase .openAad) :=
  ⟨witness_openAad_inv, rfl⟩

theorem witness_NoPlaintextBeforeTheTagMatches :
    (Inv (inPhase .openAad) ∧ (inPhase .openAad).rstN = true ∧ (inPhase .openAad).busy = false ∧
      (inPhase .openAad).phase.unverifiedOpen = true) ∧
    ∃ t, step (inFlight (.aeadVerify 0#7) { inPhase .openTail with rmask := 0xF#4 }) = .next t ∧ t.phase = .openDecrypt ∧
      (inFlight (.aeadVerify 0#7) { inPhase .openTail with rmask := 0xF#4 }).phase ≠ .openDecrypt :=
  ⟨⟨witness_openAad_inv, by decide, by decide, by decide⟩,
   finish (aeadVerifyEffect (inFlight (.aeadVerify 0#7) { inPhase .openTail with rmask := 0xF#4 })), rfl, by decide +kernel⟩

theorem witness_AccessesRevealNoSecret :
    sameButSecrets keyedIdle { keyedIdle with key := Vector.replicate 8 1#32, acc := 5 } ∧ hostRd (.key 0) ≠ .coreTurn ∧
    step (keyedIdle.facing (hostRd (.key 0))) = .next (answer (.read 0x040#9 0#32 false) keyedIdle) :=
  ⟨rfl, by decide, rfl⟩

theorem witness_InputsOfAPendingCommandStay :
    (busyWith (.chachaXor 64#7)).pending = some (.chachaXor 64#7) ∧
    step ((busyWith (.chachaXor 64#7)).facing (hostWr (.din 0) 1#32)) =
      .next (raiseError .busy ((busyWith (.chachaXor 64#7)).wrote (.din 0))) ∧
    (raiseError .busy ((busyWith (.chachaXor 64#7)).wrote (.din 0))).pending = some (.chachaXor 64#7) := ⟨rfl, rfl, rfl⟩

/-- Nothing waits; and inputs that are no resets wait, a CTRL write with bit 31 = 0 among them. -/
theorem witness_AcceptedCommandsComplete :
    ((busyWith (.abort 0#7)).rstN = true ∧ (busyWith (.abort 0#7)).pending = some (.abort 0#7) ∧
      ∀ x ∈ (busyWith (.abort 0#7)).inputs, ¬x.resets) ∧
    ∀ x ∈ [hostWr .ctrl 0x7FFFFFFF#32, hostRd .status, .coreTurn, .rstN true], ¬x.resets := by
  simp [busyWith, inFlight, keyedIdle, keyedWith, State.reset, Input.resets, hostWr, hostRd]

theorem witness_ChachaWorkedExamples :
    ∃ x : ChaChaState, x[0] = 0x11111111#32 ∧ x[1] = 0x01020304#32 ∧ x[2] = 0x9B8D6F43#32 ∧ x[3] = 0x01234567#32 :=
  ⟨#v[0x11111111, 0x01020304, 0x9B8D6F43, 0x01234567, 0, 0, 0, 0, 0, 0, 0, 0, 0, 0, 0, 0], by decide⟩

theorem witness_PaddingReachesAMultipleOf16 : (zeros 16).length % 16 = 0 := by decide

theorem witness_ClampByBytes : 15 < 16 ∧ 7 < 8 ∧ 3 < 16 ∧ 4 < 8 ∧ 1 < 8 ∧ 2 < 8 := by decide

theorem witness_PolyCornerCases : (zeros 32).length = 32 ∧ otkR (zeros 32) = 0#128 := by decide

theorem witness_keyedIdle : keyedIdle.atRest ∧ keyedIdle.keyed := ⟨⟨by decide, by decide, by decide⟩, by decide, by decide⟩

theorem witness_ChunkSequenceIsEncrypt : keyedIdle.atRest ∧ keyedIdle.keyed := witness_keyedIdle

theorem witness_PartSequenceIsPoly1305 :
    State.reset.atRest ∧ pkP.length = 32 ∧ chunkParts [zeros 64, [], zeros 16, zeros 3] :=
  ⟨⟨by decide, by decide, by decide⟩, by decide, by simp [chunkParts, partsOf, zeros]⟩

theorem witness_SealSequenceIsSeal :
    keyedIdle.atRest ∧ keyedIdle.keyed ∧ chunkParts [zeros 16, zeros 12] ∧ blockParts [zeros 64, zeros 50] :=
  ⟨witness_keyedIdle.1, witness_keyedIdle.2, by simp [chunkParts, partsOf, zeros], by simp [blockParts, partsOf, zeros]⟩

theorem witness_OpenSequenceIsOpen :
    keyedIdle.atRest ∧ keyedIdle.keyed ∧ chunkParts [] ∧ blockParts [hpSealed] ∧ hpTag.length = 16 :=
  ⟨witness_keyedIdle.1, witness_keyedIdle.2, trivial, by simp [blockParts, partsOf, hpSealed], by decide⟩

end Sys2Proof.Tests
end

section
/-! The invariant is kept. What it says of a session is gathered in `SessionInv`, with one rule per kind of phase; each
command's completion then follows from one of these rules, and each host access of a rule about the operation it is
built from. -/

namespace Sys2Proof.Machine

/-! The session part of the invariant. -/

/-- What `Inv` says of the session: the phase, the authenticator, TAG, AUTH_OK and DOUT. It is all that a command's own
effect has to see to. -/
structure SessionInv (s : State) : Prop where
  acc_lt : s.acc < polyP
  r_clamped : clamp s.polyR = s.polyR
  aead_keyed : s.phase.isAead = true → s.keyv = true ∧ s.noncev = true
  otk_gone : s.phase.hasOtk = false → s.polyR = 0#128 ∧ s.polyS = 0#128 ∧ s.acc = 0
  tag_clear : s.phase ≠ .idle → s.tag = Vector.replicate 4 0#32
  decrypt_verified : s.phase = .openDecrypt → s.authOk = true
  auth_clear : s.phase.isAead = true → s.phase ≠ .openDecrypt → s.authOk = false
  no_plaintext : s.phase.unverifiedOpen = true → s.dout = Vector.replicate 16 0#32

theorem Inv.session {s : State} (h : Inv s) : SessionInv s :=
  ⟨h.acc_lt, h.r_clamped, h.aead_keyed, h.otk_gone, h.tag_clear, h.decrypt_verified, h.auth_clear, h.no_plaintext⟩

/-- With no command in flight the session is all there is to the invariant, but for ERR and the reset input. -/
theorem SessionInv.inv {s : State} (h : SessionInv s) (hp : s.pending = none) (he : s.errcode = .noError ↔ s.err = false)
    (hr : s.rstN = false → resetCore s = s) : Inv s where
  __ := h
  errcode_iff := he
  pending_ok := by simp [hp]
  held_in_reset := hr

/-- In IDLE the invariant asks for nothing but a discarded one-time key (R43). -/
theorem SessionInv.ended {s : State} (hp : s.phase = .idle) (hR : s.polyR = 0#128) (hS : s.polyS = 0#128)
    (hA : s.acc = 0) : SessionInv s := by
  constructor <;> simp [hp, hR, hS, hA, Phase.isAead, Phase.unverifiedOpen, polyP]

/-- A raw Poly1305 session. -/
theorem SessionInv.raw {s : State} (hp : s.phase = .mac ∨ s.phase = .macTail) (hA : s.acc < polyP)
    (hR : clamp s.polyR = s.polyR) (hT : s.tag = Vector.replicate 4 0#32) : SessionInv s := by
  rcases hp with hp | hp <;> constructor <;> simp [hp, hA, hR, hT, Phase.isAead, Phase.hasOtk, Phase.unverifiedOpen]

/-- An AEAD session before its tag is output or verified. -/
theorem SessionInv.aead {s : State} (ho : s.phase.hasOtk = true) (hA : s.acc < polyP)
    (hR : clamp s.polyR = s.polyR) (hK : s.keyv = true ∧ s.noncev = true) (hT : s.tag = Vector.replicate 4 0#32)
    (hO : s.authOk = false) (hD : s.phase.unverifiedOpen = true → s.dout = Vector.replicate 16 0#32) : SessionInv s where
  acc_lt := hA
  r_clamped := hR
  aead_keyed _ := hK
  otk_gone hn := by simp [ho] at hn
  tag_clear _ := hT
  decrypt_verified hd := by simp [hd, Phase.hasOtk] at ho
  auth_clear _ _ := hO
  no_plaintext := hD

/-- An open whose tag has matched. -/
theorem SessionInv.decrypting {s : State} (hp : s.phase = .openDecrypt) (hR : s.polyR = 0#128) (hS : s.polyS = 0#128)
    (hA : s.acc = 0) (hK : s.keyv = true ∧ s.noncev = true) (hT : s.tag = Vector.replicate 4 0#32)
    (hO : s.authOk = true) : SessionInv s := by
  constructor <;> simp [hp, hR, hS, hA, hK, hT, hO, Phase.unverifiedOpen, polyP]

/-- Outside an unverified open DOUT is free, and COUNTER and CWRAP always are. -/
theorem SessionInv.output {s : State} (h : SessionInv s) (hu : s.phase.unverifiedOpen = false) (d : Vector Word 16)
    (c : Word) (w : Bool) : SessionInv { s with dout := d, counter := c, cwrap := w } where
  __ := h
  no_plaintext ho := by simp [hu] at ho

/-! The commands. -/

/-- Absorbing zero-padded bytes keeps ACC reduced (R145, R165). -/
theorem absorbPadded_lt (r : BitVec 128) (acc : Nat) (B : List Byte) (h : acc < polyP) : absorbPadded r acc B < polyP :=
  absorb_lt r acc _ h

theorem issuable_iff (i : Instr) (s : State) : issuable i s = true ↔
    i.wf = true ∧ admitted i s.phase = true ∧ (needsKeyNonce i = true → s.keyv = true ∧ s.noncev = true) := by
  simp [issuable, and_assoc, Decidable.imp_iff_not_or]

/-- `AeadInit` starts a session that meets the invariant, the key and the nonce being complete (R167, R168). -/
theorem aeadInit_session {s : State} {p : Phase} (ho : p.hasOtk = true) (hK : s.keyv = true ∧ s.noncev = true) :
    SessionInv (aeadInit p s) :=
  .aead ho (by simp [aeadInit, polyP]) (clamp_otkR _) hK tagOf_zeros rfl fun _ => doutOf_nil

/-- An AEAD session that absorbs data goes on as one, in an unverified open only from an unverified open, whose
DOUT it leaves. -/
theorem SessionInv.absorbed {s t : State} (h : SessionInv s) (hs : s.phase.isAead = true ∧ s.phase.hasOtk = true)
    (ht : t.phase.hasOtk = true)
    (hD : t.phase.unverifiedOpen = true → s.phase.unverifiedOpen = true ∧ t.dout = s.dout) (hA : t.acc < polyP)
    (hR : t.polyR = s.polyR) (hk : t.kmask = s.kmask) (hn : t.nmask = s.nmask) (hT : t.tag = s.tag)
    (hO : t.authOk = s.authOk) : SessionInv t := by
  obtain ⟨hp, ho⟩ := hs
  have hidle : s.phase ≠ .idle := fun hi => by simp [hi, Phase.isAead] at hp
  have hdec : s.phase ≠ .openDecrypt := fun hd => by simp [hd, Phase.hasOtk] at ho
  have hK : t.keyv = true ∧ t.noncev = true := by
    rw [State.keyv, State.noncev, hk, hn]
    exact h.aead_keyed hp
  refine .aead ht hA (by rw [hR, h.r_clamped]) hK (hT.trans (h.tag_clear hidle)) (hO.trans (h.auth_clear hp hdec)) ?_
  intro hu
  obtain ⟨hsu, hd⟩ := hD hu
  exact hd.trans (h.no_plaintext hsu)

/-- Every command that passed its checks keeps the session part of the invariant at its completion. -/
theorem effectOf_session {s : State} {i : Instr} (h : SessionInv s) (hi : issuable i s = true) :
    SessionInv (effectOf i s).1 := by
  obtain ⟨-, ha, hk⟩ := (issuable_iff i s).mp hi
  cases i with
  | chachaBlock len =>
    have hp : (s.phase = .idle ∨ s.phase = .mac) ∨ s.phase = .macTail := by simpa [admitted] using ha
    exact h.output (by rcases hp with (hp | hp) | hp <;> simp [hp, Phase.unverifiedOpen]) _ _ _
  | chachaXor len =>
    have hp : (s.phase = .idle ∨ s.phase = .mac) ∨ s.phase = .macTail := by simpa [admitted] using ha
    exact h.output (by rcases hp with (hp | hp) | hp <;> simp [hp, Phase.unverifiedOpen]) _ _ _
  | polyInit len => exact .raw (.inl rfl) (by simp [effectOf, polyInitEffect, noError, polyP]) (clamp_otkR _) tagOf_zeros
  | polyUpdate len =>
    have hp : s.phase = .mac := by simpa [admitted] using ha
    refine .raw ?_ (absorb_lt _ _ _ h.acc_lt) h.r_clamped (h.tag_clear (by simp [hp]))
    simp only [effectOf, polyUpdateEffect, noError, hp]
    split <;> simp
  | polyFinal len => exact .ended rfl rfl rfl rfl
  | aeadSealInit len => exact aeadInit_session rfl (hk rfl)
  | aeadOpenInit len => exact aeadInit_session rfl (hk rfl)
  | aeadAad len =>
    have hp : s.phase = .sealAad ∨ s.phase = .openAad := by simpa [admitted] using ha
    refine h.absorbed ?_ ?_ (fun hu => ⟨?_, rfl⟩) (absorbPadded_lt _ _ _ h.acc_lt) rfl rfl rfl rfl rfl
    · rcases hp with hp | hp <;> simp [hp, Phase.isAead, Phase.hasOtk]
    · simp only [effectOf, aeadAadEffect, noError]
      rcases hp with hp | hp <;> simp only [hp] <;> split <;> rfl
    · simp only [effectOf, aeadAadEffect, noError] at hu
      rcases hp with hp | hp
      · simp only [hp] at hu
        split at hu <;> simp [Phase.unverifiedOpen] at hu
      · simp [hp, Phase.unverifiedOpen]
  | aeadEnc len =>
    have hp : s.phase = .sealAad ∨ s.phase = .sealData := by simpa [admitted] using ha
    refine h.absorbed ?_ ?_ (fun hu => ?_) (absorbPadded_lt _ _ _ h.acc_lt) rfl rfl rfl rfl rfl
    · rcases hp with hp | hp <;> simp [hp, Phase.isAead, Phase.hasOtk]
    · simp only [effectOf, aeadEncEffect, noError, dataPhase]
      split <;> rfl
    · simp only [effectOf, aeadEncEffect, noError, dataPhase] at hu
      split at hu <;> simp [Phase.unverifiedOpen] at hu
  | aeadTag len => exact .ended rfl rfl rfl rfl
  | aeadAbsorb len =>
    have hp : s.phase = .openAad ∨ s.phase = .openData := by simpa [admitted] using ha
    refine h.absorbed ?_ ?_ (fun _ => ⟨?_, rfl⟩) (absorbPadded_lt _ _ _ h.acc_lt) rfl rfl rfl rfl rfl
    · rcases hp with hp | hp <;> simp [hp, Phase.isAead, Phase.hasOtk]
    · simp only [effectOf, aeadAbsorbEffect, noError, dataPhase]
      split <;> rfl
    · rcases hp with hp | hp <;> simp [hp, Phase.unverifiedOpen]
  | aeadVerify len =>
    have hp : (s.phase = .openAad ∨ s.phase = .openData) ∨ s.phase = .openTail := by simpa [admitted] using ha
    have hK := h.aead_keyed (by rcases hp with (hp | hp) | hp <;> simp [hp, Phase.isAead])
    have hT := h.tag_clear (by rcases hp with (hp | hp) | hp <;> simp [hp])
    simp only [effectOf, aeadVerifyEffect]
    split
    · exact .decrypting rfl rfl rfl rfl hK hT rfl
    · exact .ended rfl rfl rfl rfl
  | aeadDecrypt len =>
    have hp : s.phase = .openDecrypt := by simpa [admitted] using ha
    obtain ⟨hR, hS, hA⟩ := h.otk_gone (by rw [hp]; rfl)
    by_cases hl : len.toNat < 64
    · exact .ended (if_pos hl) hR hS hA
    · exact .decrypting ((if_neg hl).trans hp) hR hS hA (h.aead_keyed (by rw [hp]; rfl))
        (h.tag_clear (by simp [hp])) (h.decrypt_verified hp)
  | abort len => exact .ended rfl rfl rfl rfl
  | zeroize len => exact .ended rfl rfl rfl rfl

/-! The operations. -/

/-- What the invariant does not read may have any value while `rst_n` is high. -/
theorem Inv.unread {s : State} (h : Inv s) (hr : s.rstN = true) {is : List Input} {l : List Transfer} {n : Nat}
    {ie eie d w : Bool} {c : Word} {rt : Vector Word 4} {rm : BitVec 4} {din : Vector Word 16} :
    Inv { s with inputs := is, transfers := l, draws := n, ie := ie, eie := eie, done := d, cwrap := w, counter := c,
                 rtag := rt, rmask := rm, din := din } where
  __ := h
  held_in_reset hl := by simp [hr] at hl

/-- The inputs to come are no part of the core, in reset or out of it. -/
theorem Inv.inputs {s : State} (h : Inv s) (is : List Input) : Inv { s with inputs := is } where
  __ := h
  held_in_reset hl := congrArg (State.port · is s.transfers) (h.held_in_reset hl)

theorem Inv.raiseError {s : State} (h : Inv s) (hr : s.rstN = true) {code : ErrCode} (hc : code ≠ .noError) :
    Inv (raiseError code s) where
  __ := h
  errcode_iff := by simp [hc]
  held_in_reset hl := by simp [hr] at hl

theorem Inv.clearError {s : State} (h : Inv s) (hr : s.rstN = true) : Inv (clearError s) where
  __ := h
  errcode_iff := by simp
  held_in_reset hl := by simp [hr] at hl

/-- A reset establishes the invariant, whatever level `rst_n` has (R230). -/
theorem resetCore_inv (s : State) (level : Bool) : Inv { resetCore s with rstN := level } :=
  (SessionInv.ended rfl rfl rfl rfl).inv rfl (by simp) fun _ => rfl

/-- Acceptance keeps the invariant when the checks hold (R103). -/
theorem Inv.accept {s : State} (h : Inv s) (hr : s.rstN = true) {i : Instr} (hi : issuable i s = true) :
    Inv (accept i s) where
  __ := h
  pending_ok j hj := by
    obtain rfl : i = j := by simpa using hj
    exact hi
  held_in_reset hl := by simp [hr] at hl

theorem Inv.issue {s : State} (h : Inv s) (hr : s.rstN = true) (i : Instr) : Inv (issue i s) := by
  rcases issue_cases i s with ⟨hi, heq⟩ | ⟨-, code, hc, heq⟩ <;> rw [heq]
  · exact h.accept hr hi
  · exact h.raiseError hr (by rintro rfl; simp at hc)

/-- The end of a completion keeps the invariant when the command's effect kept its session part (R104). -/
theorem SessionInv.finish {e : State × Option ErrCode} (h : SessionInv e.1) (hr : e.1.rstN = true)
    (he : e.1.errcode = .noError ↔ e.1.err = false) (ho : e.2 ≠ some .noError) : Inv (finish e) := by
  have hl {P : Prop} (hf : e.1.rstN = false) : P := by simp [hr] at hf
  obtain ⟨s, o⟩ := e
  cases o with
  | none => exact SessionInv.inv { h with } rfl he hl
  | some code =>
    have hn : Inv { s with pending := none } := SessionInv.inv { h with } rfl he hl
    exact hn.raiseError hr (by simpa using ho)

/-- The completion of the command in flight keeps the invariant (R104). -/
theorem Inv.completion {s : State} (h : Inv s) (hr : s.rstN = true) {i : Instr} (hp : s.pending = some i) :
    Inv (Machine.finish (effectOf i s)) := by
  obtain ⟨-, -, -, hr', -, -, -, herr, hcode⟩ := effectOf_port i s
  refine SessionInv.finish (effectOf_session h.session (h.pending_ok i hp)) (hr'.trans hr) ?_ ?_
  · rw [hcode, herr]
    exact h.errcode_iff
  · rcases effectOf_error i s with ho | ⟨-, ho⟩ <;> rw [ho] <;> decide

/-! The accesses. -/

theorem Inv.unlessBusy {s : State} (h : Inv s) (hr : s.rstN = true) {act : State → State}
    (hact : s.busy = false → Inv (act s)) : Inv (unlessBusy act s) := by
  unfold Machine.unlessBusy
  split
  · exact h.raiseError hr (by decide)
  · next hb => exact hact (by simpa using hb)

theorem Inv.unlessLocked {s : State} (h : Inv s) (hr : s.rstN = true) {act : State → State}
    (hact : s.busy = false → s.phase.isAead = false → Inv (act s)) : Inv (unlessLocked act s) := by
  refine h.unlessBusy hr fun hb => ?_
  split
  · exact h.raiseError hr (by decide)
  · next ha => exact hact hb (by simpa using ha)

/-- KEY, NONCE and their masks are free while no command is in flight and no AEAD phase needs them. -/
theorem Inv.rekeyed {s : State} (h : Inv s) (hr : s.rstN = true) (hb : s.busy = false) (ha : s.phase.isAead = false)
    {k : Vector Word 8} {km : BitVec 8} {n : Vector Word 3} {nm : BitVec 3} :
    Inv { s with key := k, kmask := km, nonce := n, nmask := nm } where
  __ := h
  pending_ok := by simp [(busy_eq_false s).mp hb]
  aead_keyed hp := by simp [ha] at hp
  held_in_reset hl := by simp [hr] at hl

/-- No write to a register but CMD breaks the invariant. -/
theorem Inv.writeData {s : State} (h : Inv s) (hr : s.rstN = true) (r : Reg) (v : Word) : Inv (writeData r v s) := by
  cases r with
  | ctrl =>
    simp only [Machine.writeData, writeCtrl]
    split
    · exact resetCore_inv s s.rstN
    · exact h.unlessBusy hr fun _ => h.unread hr
  | status =>
    simp only [Machine.writeData, writeStatus]
    split
    · exact (h.unread hr).clearError hr
    · exact h.unread hr
  | counter => exact h.unlessLocked hr fun _ _ => h.unread hr
  | key j => exact h.unlessLocked hr fun hb ha => h.rekeyed hr hb ha
  | nonce j => exact h.unlessLocked hr fun hb ha => h.rekeyed hr hb ha
  | rtag j =>
    simp only [Machine.writeData]
    exact h.unlessBusy hr fun _ => h.unread hr
  | din j =>
    simp only [Machine.writeData]
    exact h.unlessBusy hr fun _ => h.unread hr
  | _ => exact h

theorem Inv.answer {s : State} (h : Inv s) (hr : s.rstN = true) (t : Transfer) : Inv (answer t s) := h.unread hr

theorem Inv.present {s t : State} (h : Inv s) (hr : s.rstN = true) {w : Word} (ht : present w s = .next t) : Inv t := by
  rcases present_cases w s with ⟨-, hp⟩ | ⟨-, -, hp⟩ | ⟨-, i, -, hp, hi⟩ <;> rw [hp] at ht
  · cases ht
    exact h.raiseError hr (by decide)
  · cases ht
    exact h.raiseError hr (by decide)
  · rw [hi] at ht
    cases ht
    exact h.issue hr i

theorem Inv.hostWrite {s t : State} (h : Inv s) (hr : s.rstN = true) {off : BitVec 9} {width : Nat} {v : Word}
    (ht : hostWrite off width v s = .next t) : Inv t := by
  rcases hostWrite_cases off width v s with ⟨-, hw⟩ | ⟨-, -, hw⟩ | ⟨-, -, hw⟩ <;> rw [hw] at ht
  · cases ht
    exact (h.answer hr _).raiseError hr (by decide)
  · exact (h.answer hr _).present hr ht
  · cases ht
    exact (h.answer hr _).writeData hr _ _

theorem Inv.hostRead {s : State} (h : Inv s) (hr : s.rstN = true) (off : BitVec 9) (width : Nat) :
    Inv (hostRead off width s) := by
  unfold Machine.hostRead readReg
  split
  · exact (h.raiseError hr (by decide)).answer hr _
  · by_cases hb : (s.busy && (regAt off).isResult) = true
    · simp only [hb, if_true]
      exact h.unread hr
    · simp only [hb]
      exact h.answer hr _

theorem Inv.coreStep {s t : State} (h : Inv s) (hr : s.rstN = true) (ht : coreStep s = .next t) : Inv t := by
  unfold Machine.coreStep at ht
  split at ht
  · cases ht
    exact h
  · next i hp =>
    rw [exec_of_pending hp] at ht
    cases ht
    exact h.completion hr hp

/-- Every input keeps the invariant. -/
theorem Inv.perform {s t : State} (h : Inv s) {i : Input} (ht : perform i s = .next t) : Inv t := by
  cases hr : s.rstN with
  | false =>
    rw [perform_held hr] at ht
    cases ht
    cases i with
    | rstN level => exact resetCore_inv s level
    | _ => exact resetCore_inv s s.rstN
  | true =>
    cases i with
    | read off width =>
      rw [perform_read hr] at ht
      cases ht
      exact h.hostRead hr off width
    | write off width v => exact h.hostWrite hr ((perform_write hr off width v).symm.trans ht)
    | coreTurn => exact h.coreStep hr ((perform_coreTurn hr).symm.trans ht)
    | rstN level =>
      rw [perform_rstN] at ht
      cases ht
      split
      · exact h
      · exact resetCore_inv s level

/-- Settles O46: the inputs are no part of the invariant, and each of them keeps it. -/
theorem everyStepKeepsTheInvariant : Obligations.EveryStepKeepsTheInvariant := by
  intro s t h ht
  cases hi : s.inputs with
  | nil => exact h.perform ((step_nil hi).symm.trans ht)
  | cons i rest => exact (h.inputs rest).perform ((step_cons hi).symm.trans ht)

end Sys2Proof.Machine
end

section
/-! The register window: the map's reserved space, what a write to STATUS or to a read-only register does, the fields of
STATUS, and that no access tells secrets apart. -/

namespace Sys2Proof.Machine

/-! The register map. -/

/-- An aligned offset is that of one of the window's 128 words (R60). -/
theorem exists_word {off : BitVec 9} (ha : off.toNat % 4 = 0) : ∃ w : Fin 128, off = BitVec.ofNat 9 (4 * w) := by
  have hlt := off.isLt
  refine ⟨⟨off.toNat / 4, by omega⟩, BitVec.eq_of_toNat_eq ?_⟩
  simp only [BitVec.toNat_ofNat]
  omega

/-- The aligned offsets without a register are the reserved ones (R39). -/
theorem regAt_eq_reserved_iff {off : BitVec 9} (ha : off.toNat % 4 = 0) : regAt off = .reserved ↔ reservedOffset off := by
  obtain ⟨w, rfl⟩ := exists_word ha
  clear ha
  unfold reservedOffset
  revert w
  decide

/-- A register found at an aligned offset has that offset. -/
theorem offset_regAt {off : BitVec 9} (ha : off.toNat % 4 = 0) (hn : regAt off ≠ .reserved) :
    (regAt off).offset = off := by
  obtain ⟨w, rfl⟩ := exists_word ha
  clear ha
  revert w
  decide

/-- Settles O15: the map is read off `regAt` and `Reg.offset`. -/
theorem registerMapIsTheSpecs : Obligations.RegisterMapIsTheSpecs := by
  refine ⟨fun _ => offset_regAt, fun r _ => regAt_offset r, fun _ => regAt_eq_reserved_iff,
    rfl, rfl, rfl, rfl, rfl, rfl, rfl, rfl, rfl, ?_, ?_, ?_, ?_, ?_, ?_⟩ <;> decide

/-! Reads and writes that do little. -/

/-- The registers that ignore every write without an error (R39, R62). -/
def Reg.ignoresWrites : Reg → Bool
  | .id => true
  | .aadlenLo => true
  | .aadlenHi => true
  | .ctlenLo => true
  | .ctlenHi => true
  | .tag _ => true
  | .dout _ => true
  | .reserved => true
  | .ctrl => false
  | .cmd => false
  | .status => false
  | .counter => false
  | .key _ => false
  | .nonce _ => false
  | .rtag _ => false
  | .din _ => false

/-- An aligned write to a register that ignores writes is answered and changes nothing, busy or not. -/
theorem step_write_ignored {s : State} {off : BitVec 9} (hr : s.rstN = true) (ha : off.toNat % 4 = 0)
    (hi : (regAt off).ignoresWrites = true) (v : Word) :
    step (s.facing (.write off 4 v)) = .next (answer (.write off false) s) := by
  rw [step_facing, perform_write_aligned hr ha]
  cases h : regAt off <;> simp [h, Reg.ignoresWrites] at hi <;> rfl

/-- An aligned read of a register that is not a result answers its contents and changes nothing, busy or not. -/
theorem step_read_defined {s : State} {off : BitVec 9} (hr : s.rstN = true) (ha : off.toNat % 4 = 0)
    (hd : (regAt off).isResult = false) :
    step (s.facing (.read off 4)) = .next (answer (.read off (regValue (regAt off) s) false) s) := by
  rw [step_facing, perform_read_aligned hr ha, readReg, hd, Bool.and_false]
  rfl

/-- The reserved bits of CTRL read 0 (R39). -/
theorem ctrl_reserved_bits (s : State) : regValue .ctrl s &&& 0xFFFFFFFC#32 = 0#32 := by
  apply BitVec.eq_of_getLsbD_eq
  intro i hi
  rw [BitVec.getLsbD_and, regValue, ctrlWord_getLsbD]
  interval_cases i <;> simp

/-- The reserved bits of STATUS read 0 (R39). -/
theorem status_reserved_bits (s : State) : regValue .status s &&& 0xFFF800E0#32 = 0#32 := by
  apply BitVec.eq_of_getLsbD_eq
  intro i hi
  rw [BitVec.getLsbD_and, regValue, statusWord_getLsbD]
  interval_cases i <;> simp

/-- Settles O14: reserved offsets hold no register, and only the defined bits of CTRL and STATUS are looked at. -/
theorem reservedSpaceReadsZeroIgnoresWrites : Obligations.ReservedSpaceReadsZeroIgnoresWrites := by
  refine ⟨fun s off v hr ha ho => ?_, fun s => ⟨ctrl_reserved_bits s, status_reserved_bits s⟩, fun s v => ⟨?_, ?_⟩,
    fun s r v hr hro => ?_⟩
  · have hreg := (regAt_eq_reserved_iff ha).mpr ho
    have hread := step_read_defined hr ha (by rw [hreg]; rfl)
    rw [hreg] at hread
    exact ⟨hread, step_write_ignored hr ha (by rw [hreg]; rfl) v⟩
  · simp [writeData, writeCtrl]
  · simp [writeData, writeStatus]
  · refine step_write_ignored hr (offset_aligned r) ?_ v
    rw [regAt_offset]
    rcases hro with rfl | rfl | rfl | rfl | rfl | ⟨j, rfl⟩ | ⟨j, rfl⟩ <;> rfl

/-- Settles O16: the register at offset 0 is ID, which is no result and ignores writes. -/
theorem idIsHardwired : Obligations.IdIsHardwired := by
  refine ⟨fun s v hr => ⟨?_, ?_⟩, by decide⟩
  · exact step_read_defined (off := Reg.id.offset) hr (by decide) (by decide)
  · exact step_write_ignored (off := Reg.id.offset) hr (by decide) (by decide) v

/-! STATUS. -/

/-- What a write to STATUS leaves (R24, R207). -/
theorem writeStatus_eq (v : Word) (s : State) : writeStatus v s =
    { s with done := if v.getLsbD 1 = true then false else s.done
             err := if v.getLsbD 2 = true then false else s.err
             errcode := if v.getLsbD 2 = true then .noError else s.errcode
             cwrap := if v.getLsbD 4 = true then false else s.cwrap } := by
  unfold writeStatus
  cases v.getLsbD 1 <;> cases v.getLsbD 2 <;> cases v.getLsbD 4 <;> simp [clearError]

/-- Settles O21: a write to STATUS is never refused. -/
theorem statusWriteClearsChosenBits : Obligations.StatusWriteClearsChosenBits := by
  intro s v hr
  refine ⟨writeStatus v (s.wrote .status), perform_hostWr hr (by decide) v, ?_⟩
  rw [writeStatus_eq]
  exact ⟨rfl, rfl, rfl, rfl, rfl⟩

/-- A mask's flag is 1 exactly when each of its bits is (R32, R33). -/
theorem mask_flag {n : Nat} (m : BitVec n) :
    (m == BitVec.allOnes n) = decide (∀ j : Fin n, m.getLsbD j = true) := by
  rw [Bool.eq_iff_iff, beq_iff_eq, decide_eq_true_iff, mask_full_iff]

/-- The four bits from `a` on of a word that has those of `c` there. -/
theorem extract_four {w : Word} {a : Nat} {c : BitVec 4} (h : ∀ i < 4, w.getLsbD (a + i) = c.getLsbD i) :
    w.extractLsb' a 4 = c := by
  apply BitVec.eq_of_getLsbD_eq
  intro i hi
  simp [hi, h i hi]

/-- Settles O22: each field is read off the bits of the STATUS word. -/
theorem statusFieldsAtTheirBits : Obligations.StatusFieldsAtTheirBits := by
  refine ⟨⟨rfl, rfl, rfl, rfl, rfl, rfl, rfl, rfl, rfl, rfl⟩, ⟨rfl, rfl, rfl, rfl, rfl, rfl, rfl, rfl, rfl, rfl⟩,
    fun s => ?_⟩
  have hbit := statusWord_getLsbD s
  refine ⟨hbit 0, hbit 1, hbit 2, hbit 3, hbit 4, extract_four fun i hi => ?_, extract_four fun i hi => ?_,
    (hbit 16).trans (mask_flag s.kmask), (hbit 17).trans (mask_flag s.nmask), (hbit 18).trans (mask_flag s.rmask)⟩
  · rw [regValue, hbit]
    interval_cases i <;> rfl
  · rw [regValue, hbit]
    interval_cases i <;> rfl

/-! Secrets. -/

/-- `s` with other secrets. -/
def State.withSecrets (s : State) (key : Vector Word 8) (r sv : BitVec 128) (acc : Nat) : State :=
  { s with key := key, polyR := r, polyS := sv, acc := acc }

theorem sameButSecrets_iff {s t : State} :
    sameButSecrets s t ↔ ∃ key r sv acc, t = s.withSecrets key r sv acc := by
  constructor
  · intro h
    exact ⟨_, _, _, _, h⟩
  · rintro ⟨key, r, sv, acc, rfl⟩
    rfl

/-- An operation on the state that cannot tell secrets apart. -/
def Blind (f : State → State) : Prop := ∀ s s', sameButSecrets s s' → sameButSecrets (f s) (f s')

/-- It is enough that changed secrets change nothing but secrets. -/
theorem Blind.intro {f : State → State}
    (h : ∀ s key r sv acc, sameButSecrets (f s) (f (s.withSecrets key r sv acc))) : Blind f := by
  intro s s' hs
  obtain ⟨key, r, sv, acc, rfl⟩ := sameButSecrets_iff.mp hs
  exact h s key r sv acc

theorem Blind.comp {f g : State → State} (hg : Blind g) (hf : Blind f) : Blind fun s => g (f s) :=
  fun _ _ hs => hg _ _ (hf _ _ hs)

/-- A choice by something that is no secret. -/
theorem Blind.ite {c : State → Bool} (hc : ∀ s key r sv acc, c (s.withSecrets key r sv acc) = c s)
    {f g : State → State} (hf : Blind f) (hg : Blind g) : Blind fun s => if c s then f s else g s := by
  intro s s' hs
  have hcs : c s' = c s := by
    obtain ⟨key, r, sv, acc, rfl⟩ := sameButSecrets_iff.mp hs
    exact hc s key r sv acc
  simp only [hcs]
  split
  · exact hf s s' hs
  · exact hg s s' hs

theorem raiseError_blind (code : ErrCode) : Blind (raiseError code) := .intro fun _ _ _ _ _ => rfl
theorem answer_blind (t : Transfer) : Blind (answer t) := .intro fun _ _ _ _ _ => rfl
theorem accept_blind (i : Instr) : Blind (accept i) := .intro fun _ _ _ _ _ => rfl
theorem resetCore_blind : Blind resetCore := .intro fun _ _ _ _ _ => rfl

theorem unlessBusy_blind {act : State → State} (h : Blind act) : Blind (unlessBusy act) :=
  .ite (fun _ _ _ _ _ => rfl) (raiseError_blind .busy) h

theorem unlessLocked_blind {act : State → State} (h : Blind act) : Blind (unlessLocked act) :=
  unlessBusy_blind (.ite (fun _ _ _ _ _ => rfl) (raiseError_blind .locked) h)

/-- No write to a register but CMD tells secrets apart: what is written to KEY is no secret of the core's. -/
theorem writeData_blind (r : Reg) (v : Word) : Blind (writeData r v) := by
  cases r with
  | ctrl =>
    exact .ite (c := fun _ => v.getLsbD 31) (fun _ _ _ _ _ => rfl) (.intro fun _ _ _ _ _ => rfl)
      (unlessBusy_blind (.intro fun _ _ _ _ _ => rfl))
  | status =>
    refine .intro fun s key r sv acc => ?_
    rw [writeData, writeData, writeStatus_eq, writeStatus_eq]
    rfl
  | counter => exact unlessLocked_blind (.intro fun _ _ _ _ _ => rfl)
  | key j => exact unlessLocked_blind (.intro fun _ _ _ _ _ => rfl)
  | nonce j => exact unlessLocked_blind (.intro fun _ _ _ _ _ => rfl)
  | rtag j => exact unlessBusy_blind (.intro fun _ _ _ _ _ => rfl)
  | din j => exact unlessBusy_blind (.intro fun _ _ _ _ _ => rfl)
  | _ => exact fun _ _ hs => hs

/-- The checks on a command read no secret: whether the key is loaded is its mask's, not its value's (R102). -/
theorem issue_blind (i : Instr) : Blind (issue i) := by
  refine .ite (c := fun _ => !i.wf) ?_ (raiseError_blind _) <|
    .ite (c := fun s => !admitted i s.phase) ?_ (raiseError_blind _) <|
    .ite (c := fun s => needsKeyNonce i && !s.keyv) ?_ (raiseError_blind _) <|
    .ite (c := fun s => needsKeyNonce i && !s.noncev) ?_ (raiseError_blind _) (accept_blind i) <;>
  exact fun _ _ _ _ _ => rfl

/-- No register reads as a secret, nor does a secret pick the value read (R36, R43, R107). -/
theorem regValue_withSecrets (r : Reg) (s : State) (key : Vector Word 8) (rv sv : BitVec 128) (acc : Nat) :
    regValue r (s.withSecrets key rv sv acc) = regValue r s := by
  cases r <;> rfl

theorem readReg_withSecrets (r : Reg) (s : State) (key : Vector Word 8) (rv sv : BitVec 128) (acc : Nat) :
    readReg r (s.withSecrets key rv sv acc) = ((readReg r s).1, (readReg r s).2.withSecrets key rv sv acc) := by
  have hb : (s.withSecrets key rv sv acc).busy = s.busy := rfl
  unfold readReg
  rw [hb, regValue_withSecrets]
  split <;> rfl

theorem hostRead_blind (off : BitVec 9) (width : Nat) : Blind (hostRead off width) := by
  refine .intro fun s key r sv acc => ?_
  unfold hostRead
  split
  · rfl
  · rw [readReg_withSecrets]
    rfl

/-- `m` always answers a next state, by an operation that cannot tell secrets apart. -/
def BlindStep (m : State → Host.Outcome State Fault Refusal) : Prop :=
  ∃ f, Blind f ∧ ∀ s, m s = .next (f s)

theorem present_blindStep (w : Word) : BlindStep (present w) := by
  cases hd : decode w with
  | error e =>
    refine ⟨fun s => if s.busy then raiseError .busy s else raiseError .illegal s,
      .ite (fun _ _ _ _ _ => rfl) (raiseError_blind _) (raiseError_blind _), fun s => ?_⟩
    simp only [present, hd]
    split <;> rfl
  | ok i =>
    refine ⟨fun s => if s.busy then raiseError .busy s else issue i s,
      .ite (fun _ _ _ _ _ => rfl) (raiseError_blind _) (issue_blind i), fun s => ?_⟩
    rcases present_cases w s with ⟨hb, hp⟩ | ⟨-, ⟨e, he⟩, -⟩ | ⟨hb, j, hj, hp, hi⟩
    · simp [hp, hb]
    · cases hd.symm.trans he
    · cases hd.symm.trans hj
      simp [hp, hi, hb]

theorem hostWrite_blindStep (off : BitVec 9) (width : Nat) (v : Word) : BlindStep (hostWrite off width v) := by
  by_cases hm : misaccess off width = true
  · exact ⟨_, (raiseError_blind .bus).comp (answer_blind (.write off Config.busErrorResponse)),
      fun s => by simp [hostWrite, hm]⟩
  · by_cases hc : regAt off = .cmd
    · obtain ⟨f, hf, hp⟩ := present_blindStep v
      exact ⟨_, hf.comp (answer_blind (.write off false)), fun s => by simp [hostWrite, hm, hc, hp]⟩
    · exact ⟨_, (writeData_blind (regAt off) v).comp (answer_blind (.write off false)),
        fun s => by simp [hostWrite, hm, hc]⟩

/-- A host access is performed while `rst_n` is high; else the core is held in reset. -/
theorem BlindStep.unlessHeld {m : State → Host.Outcome State Fault Refusal} (h : BlindStep m) :
    BlindStep fun s => if s.rstN then m s else .next (resetCore s) := by
  obtain ⟨f, hf, hm⟩ := h
  refine ⟨fun s => if s.rstN then f s else resetCore s, .ite (fun _ _ _ _ _ => rfl) hf resetCore_blind, fun s => ?_⟩
  simp only [hm]
  split <;> rfl

/-- No input but the core's turn tells secrets apart. -/
theorem perform_blindStep {i : Input} (hi : i ≠ .coreTurn) : BlindStep (perform i) := by
  cases i with
  | coreTurn => exact absurd rfl hi
  | read off width => exact BlindStep.unlessHeld ⟨_, hostRead_blind off width, fun _ => rfl⟩
  | write off width v => exact (hostWrite_blindStep off width v).unlessHeld
  | rstN level =>
    exact ⟨_, .ite (c := fun s => s.rstN && level) (fun _ _ _ _ _ => rfl) (fun _ _ hs => hs)
      (.intro (f := fun s => { resetCore s with rstN := level }) fun _ _ _ _ _ => rfl), fun s => perform_rstN s level⟩

/-- Settles O48: an access is an operation that cannot tell secrets apart. -/
theorem accessesRevealNoSecret : Obligations.AccessesRevealNoSecret := by
  intro s s' t i hs hi ht
  obtain ⟨f, hf, hstep⟩ := perform_blindStep hi
  obtain rfl : f s = t := by simpa using (hstep s).symm.trans ht
  exact ⟨f s', hstep s', hf s s' hs⟩

end Sys2Proof.Machine
end

section
/-! The accesses at the port: an aligned read with no command in flight, the refused accesses, and that nothing a command in
flight computes from changes before the command ends. -/

namespace Sys2Proof.Machine

/-! Reads. -/

/-- With no command in flight a read returns the contents and changes nothing (R61). -/
theorem readReg_idle {s : State} (hb : s.busy = false) (r : Reg) : readReg r s = (regValue r s, s) := by
  simp [readReg, hb]

/-- The high word of a 64-bit length, as a number (R35). -/
theorem highWord_toNat (x : BitVec 64) : (x.extractLsb' 32 32).toNat = x.toNat / 2 ^ 32 := by
  rw [BitVec.extractLsb'_toNat, Nat.shiftRight_eq_div_pow, Nat.mod_eq_of_lt]
  have := x.isLt
  omega

/-- CTRL reads as IE at bit 0 and EIE at bit 1, and 0 elsewhere (R22). -/
theorem ctrl_bits (s : State) (i : Nat) :
    (regValue .ctrl s).getLsbD i = if i = 0 then s.ie else if i = 1 then s.eie else false := by
  rw [regValue, ctrlWord_getLsbD]
  match i with
  | 0 => rfl
  | 1 => rfl
  | i + 2 => simp

/-- Settles O12: with no command in flight no register is a free value, and `regValue` says what each one reads as. -/
theorem readsReturnContentsAndChangeNothing : Obligations.ReadsReturnContentsAndChangeNothing := by
  refine ⟨fun s off hr hb ha => ?_, fun s => ?_⟩
  · rw [step_facing, perform_read_aligned hr ha, readReg_idle hb]
  · exact ⟨rfl, ctrl_bits s, rfl, rfl, rfl, BitVec.extractLsb'_toNat 0 32 _, highWord_toNat _,
      BitVec.extractLsb'_toNat 0 32 _, highWord_toNat _,
      fun _ => rfl, fun _ => rfl, fun _ => rfl, fun _ => rfl, fun _ => rfl, fun _ => rfl, rfl⟩

/-! Refused accesses. -/

/-- The accesses refused with BUS (R63). -/
theorem misaccess_iff {off : BitVec 9} {width : Nat} :
    misaccess off width = true ↔ off.toNat % 4 ≠ 0 ∨ width ≠ 4 := by
  simp [misaccess]

/-- Settles O13: either access checks its offset and width before anything else. -/
theorem refusedAccessRaisesBus : Obligations.RefusedAccessRaisesBus := by
  refine ⟨fun s off width v hr hbad => ?_, rfl⟩
  have hm := misaccess_iff.mpr hbad
  constructor
  · rw [step_facing, perform_read hr, hostRead, if_pos hm]
    rfl
  · rw [step_facing, perform_write hr, hostWrite, if_pos hm]
    rfl

/-! What a command in flight computes from. -/

/-- All a command in flight computes from (R71): the registers it reads, the write masks, the lengths, the authenticator and
the phase. -/
def State.operands (s : State) :=
  (s.key, s.nonce, s.counter, s.din, s.rtag, s.kmask, s.nmask, s.rmask, s.aadlen, s.ctlen, s.polyR, s.polyS, s.acc, s.phase)

/-- From `s` to `t` the command in flight has ended, or what it computes from has stayed. -/
def OperandsHeld (s t : State) : Prop := t.pending = none ∨ t.operands = s.operands

/-- A write that a command in flight refuses only raises BUSY while busy (R106). -/
theorem unlessBusy_of_busy {s : State} (hb : s.busy = true) (act : State → State) :
    unlessBusy act s = raiseError .busy s := if_pos hb

theorem unlessBusy_operandsHeld {s : State} (hb : s.busy = true) (act : State → State) :
    OperandsHeld s (unlessBusy act s) := by
  rw [unlessBusy_of_busy hb]
  exact .inr rfl

/-- BUSY comes before LOCKED (R204). -/
theorem unlessLocked_operandsHeld {s : State} (hb : s.busy = true) (act : State → State) :
    OperandsHeld s (unlessLocked act s) := unlessBusy_operandsHeld hb _

@[simp] theorem finish_pending (e : State × Option ErrCode) : (finish e).pending = none := by
  obtain ⟨s, _ | code⟩ := e <;> rfl

/-- While busy a write to an input register raises BUSY; the others hold no operand, and SRST ends the command (R106). -/
theorem writeData_operandsHeld {s : State} (hb : s.busy = true) (r : Reg) (v : Word) :
    OperandsHeld s (writeData r v s) := by
  cases r with
  | ctrl =>
    rw [writeData, writeCtrl]
    split
    · exact .inl rfl
    · exact unlessBusy_operandsHeld hb _
  | status =>
    rw [writeData, writeStatus_eq]
    exact .inr rfl
  | counter => exact unlessLocked_operandsHeld hb _
  | key j => exact unlessLocked_operandsHeld hb _
  | nonce j => exact unlessLocked_operandsHeld hb _
  | rtag j => exact unlessBusy_operandsHeld hb _
  | din j => exact unlessBusy_operandsHeld hb _
  | _ => exact .inr rfl

theorem hostRead_operands (off : BitVec 9) (width : Nat) (s : State) : (hostRead off width s).operands = s.operands := by
  obtain ⟨_, _, _, _, _, heq⟩ := hostRead_frame off width s
  rw [heq]
  rfl

/-- A command presented while busy is turned away (R102 check 1). -/
theorem present_of_busy {s : State} (hb : s.busy = true) (w : Word) : present w s = .next (raiseError .busy s) :=
  if_pos hb

theorem hostWrite_operandsHeld {s t : State} (hb : s.busy = true) {off : BitVec 9} {width : Nat} {v : Word}
    (ht : hostWrite off width v s = .next t) : OperandsHeld s t := by
  rcases hostWrite_cases off width v s with ⟨-, hw⟩ | ⟨-, -, hw⟩ | ⟨-, -, hw⟩ <;> rw [hw] at ht
  · cases ht
    exact .inr rfl
  · rw [present_of_busy (s := answer _ s) hb] at ht
    cases ht
    exact .inr rfl
  · cases ht
    exact writeData_operandsHeld (s := answer _ s) hb _ v

/-- No input changes what a command in flight computes from and leaves the command in flight: the core's turn
completes it, and a reset discards it (R104, R232). -/
theorem perform_operandsHeld {s t : State} (hb : s.busy = true) {i : Input} (ht : perform i s = .next t) :
    OperandsHeld s t := by
  cases hr : s.rstN with
  | false =>
    rw [perform_held hr] at ht
    cases ht
    cases i <;> exact .inl rfl
  | true =>
    cases i with
    | read off width =>
      rw [perform_read hr] at ht
      cases ht
      exact .inr (hostRead_operands off width s)
    | write off width v => exact hostWrite_operandsHeld hb ((perform_write hr off width v).symm.trans ht)
    | coreTurn =>
      obtain ⟨i, hp⟩ := (busy_iff s).mp hb
      rw [perform_coreTurn hr, coreStep, hp] at ht
      obtain rfl : finish (effectOf i s) = t := by simpa using (exec_of_pending hp).symm.trans ht
      exact .inl (finish_pending _)
    | rstN level =>
      rw [perform_rstN] at ht
      cases ht
      split
      · exact .inr rfl
      · exact .inl rfl

theorem step_operandsHeld {s t : State} (hb : s.busy = true) (ht : step s = .next t) : OperandsHeld s t := by
  cases hi : s.inputs with
  | nil => exact perform_operandsHeld hb ((step_nil hi).symm.trans ht)
  | cons i rest => exact perform_operandsHeld (s := { s with inputs := rest }) hb ((step_cons hi).symm.trans ht)

/-- Settles O49: a step either ends the command in flight or holds its operands, and here it has not ended. -/
theorem inputsOfAPendingCommandStay : Obligations.InputsOfAPendingCommandStay := by
  intro s t i hp ht hpt
  have hheld := step_operandsHeld ((busy_iff s).mpr ⟨i, hp⟩) ht
  have hops : t.operands = s.operands := hheld.resolve_left (by simp [hpt])
  simpa only [State.operands, Prod.mk.injEq] using hops

end Sys2Proof.Machine
end

section
/-! The command word: a word is its four fields, so that decoding and encoding are read off them; and presentation of the words
and lengths that are refused. -/

namespace Sys2Proof.Machine

/-! Fields. -/

/-- The fields `OPC` and LEN of a word, its reserved bits being 0 (R80). -/
def HasFields (w : Word) (o : BitVec 5) (l : BitVec 7) : Prop :=
  w.extractLsb' 0 5 = o ∧ w.extractLsb' 5 3 = 0#3 ∧ w.extractLsb' 8 7 = l ∧ w.extractLsb' 15 17 = 0#17

theorem encode_hasFields (i : Instr) : HasFields (encode i) i.opc i.lenField := Laws.word_fields _ _

/-- A field of a word, bit by bit. -/
theorem getLsbD_of_extract_eq {w v : Word} {a n : Nat} (h : w.extractLsb' a n = v.extractLsb' a n) {k : Nat}
    (ha : a ≤ k) (hk : k < a + n) : w.getLsbD k = v.getLsbD k := by
  have hbit := congrArg (fun x => x.getLsbD (k - a)) h
  simpa [show k - a < n by omega, show a + (k - a) = k by omega] using hbit

/-- The four fields of R80 cover the word. -/
theorem word_ext {w v : Word} (hopc : w.extractLsb' 0 5 = v.extractLsb' 0 5) (hlow : w.extractLsb' 5 3 = v.extractLsb' 5 3)
    (hlen : w.extractLsb' 8 7 = v.extractLsb' 8 7) (hhigh : w.extractLsb' 15 17 = v.extractLsb' 15 17) : w = v := by
  apply BitVec.eq_of_getLsbD_eq
  intro k hk
  by_cases h5 : k < 5
  · exact getLsbD_of_extract_eq hopc (by omega) (by omega)
  by_cases h8 : k < 8
  · exact getLsbD_of_extract_eq hlow (by omega) (by omega)
  by_cases h15 : k < 15
  · exact getLsbD_of_extract_eq hlen (by omega) (by omega)
  · exact getLsbD_of_extract_eq hhigh (by omega) (by omega)

/-- A command's word is the one with its fields. -/
theorem encode_eq_iff {w : Word} {i : Instr} : encode i = w ↔ HasFields w i.opc i.lenField := by
  obtain ⟨eopc, elow, elen, ehigh⟩ := encode_hasFields i
  constructor
  · rintro rfl
    exact encode_hasFields i
  · rintro ⟨hopc, hlow, hlen, hhigh⟩
    exact word_ext (eopc.trans hopc.symm) (elow.trans hlow.symm) (elen.trans hlen.symm) (ehigh.trans hhigh.symm)

theorem extract_and_ones {w m : Word} {a n : Nat} (h : m.extractLsb' a n = BitVec.allOnes n) :
    (w &&& m).extractLsb' a n = w.extractLsb' a n := by
  rw [BitVec.extractLsb'_and, h, BitVec.and_allOnes]

/-- The mask of R83 keeps the opcode and the reserved bits and drops LEN. -/
theorem masked_fields (w : Word) :
    (w &&& 0xFFFF80FF#32).extractLsb' 0 5 = w.extractLsb' 0 5 ∧
    (w &&& 0xFFFF80FF#32).extractLsb' 5 3 = w.extractLsb' 5 3 ∧
    (w &&& 0xFFFF80FF#32).extractLsb' 8 7 = 0#7 ∧
    (w &&& 0xFFFF80FF#32).extractLsb' 15 17 = w.extractLsb' 15 17 := by
  refine ⟨extract_and_ones rfl, extract_and_ones rfl, ?_, extract_and_ones rfl⟩
  rw [BitVec.extractLsb'_and]
  exact BitVec.and_zero

/-- R83's mask and match pick out the words with the row's opcode and no reserved bit set. -/
theorem masked_eq_iff {w : Word} {o : BitVec 5} : w &&& 0xFFFF80FF#32 = o.setWidth 32 ↔
    w.extractLsb' 0 5 = o ∧ w.extractLsb' 5 3 = 0#3 ∧ w.extractLsb' 15 17 = 0#17 := by
  obtain ⟨mopc, mlow, mlen, mhigh⟩ := masked_fields w
  obtain ⟨oopc, olow, olen, ohigh⟩ := Laws.word_fields o 0#7
  simp only [BitVec.setWidth_zero, BitVec.zero_shiftLeft, BitVec.or_zero] at oopc olow olen ohigh
  constructor
  · intro h
    rw [h] at mopc mlow mhigh
    exact ⟨mopc.symm.trans oopc, mlow.symm.trans olow, mhigh.symm.trans ohigh⟩
  · rintro ⟨hopc, hlow, hhigh⟩
    exact word_ext ((mopc.trans hopc).trans oopc.symm) ((mlow.trans hlow).trans olow.symm) (mlen.trans olen.symm)
      ((mhigh.trans hhigh).trans ohigh.symm)

/-! Decoding. -/

theorem decode_of_hasFields {w : Word} {i : Instr} (h : HasFields w i.opc i.lenField) : decode w = .ok i := by
  obtain ⟨hopc, hlow, hlen, hhigh⟩ := h
  rw [decode, hopc, hlow, hlen, hhigh]
  cases i <;> rfl

theorem hasFields_of_decode {w : Word} {i : Instr} (h : decode w = .ok i) : HasFields w i.opc i.lenField := by
  unfold decode at h
  split at h
  · cases h
  · next hres =>
    obtain ⟨hlow, hhigh⟩ : w.extractLsb' 5 3 = 0#3 ∧ w.extractLsb' 15 17 = 0#17 := by simpa using hres
    split at h <;> cases h
    all_goals next hopc => exact ⟨BitVec.eq_of_toNat_eq hopc, hlow, rfl, hhigh⟩

/-- A word decodes to a command exactly when it has the command's fields (R83). -/
theorem decode_eq_ok_iff {w : Word} {i : Instr} : decode w = .ok i ↔ HasFields w i.opc i.lenField :=
  ⟨hasFields_of_decode, decode_of_hasFields⟩

/-- Settles O1: a word decodes to a command, and is its encoding, by the same four fields. -/
theorem decodeAndEncodeAgree : Obligations.DecodeAndEncodeAgree :=
  ⟨fun i => decode_of_hasFields (encode_hasFields i), fun _ _ h => encode_eq_iff.mpr (hasFields_of_decode h)⟩

/-- Settles O2: both forms say what the four fields are. -/
theorem wordSelectsItsRow : Obligations.WordSelectsItsRow := by
  intro w i
  simp only [decode_eq_ok_iff, masked_eq_iff, HasFields]
  exact ⟨by tauto, by tauto⟩

/-- Settles O3: each word has the fields of the command that its row names. -/
theorem specWordsDecode : Obligations.SpecWordsDecode := by
  unfold Obligations.SpecWordsDecode
  and_intros <;> exact decode_of_hasFields ⟨rfl, rfl, rfl, rfl⟩

/-! Refused words. -/

theorem opc_assigned (i : Instr) : i.opc ∉ unassignedOpcodes := by
  cases i <;> simp [Instr.opc, unassignedOpcodes]

/-- An unassigned opcode or a reserved bit makes a word illegal (R84). -/
theorem decode_ne_ok_of_illegal {w : Word}
    (hbad : w.extractLsb' 0 5 ∈ unassignedOpcodes ∨ w.extractLsb' 5 3 ≠ 0#3 ∨ w.extractLsb' 15 17 ≠ 0#17) (i : Instr) :
    decode w ≠ .ok i := by
  intro hd
  obtain ⟨hopc, hlow, -, hhigh⟩ := hasFields_of_decode hd
  rcases hbad with h | h | h
  · exact opc_assigned i (hopc ▸ h)
  · exact h hlow
  · exact h hhigh

/-- With no command in flight a word that is no command raises ILLEGAL (R102 check 2). -/
theorem present_illegal {s : State} {w : Word} (hb : s.busy = false) (hd : ∀ i, decode w ≠ .ok i) :
    present w s = .next (raiseError .illegal s) := by
  rcases present_cases w s with ⟨hb', -⟩ | ⟨-, -, h⟩ | ⟨-, i, hi, -⟩
  · simp [hb] at hb'
  · exact h
  · exact absurd hi (hd i)

theorem step_illegal {s : State} {w : Word} (hr : s.rstN = true) (hb : s.busy = false) (hd : ∀ i, decode w ≠ .ok i) :
    step (s.facing (hostWr .cmd w)) = .next (raiseError .illegal (s.wrote .cmd)) := by
  rw [step_facing, perform_hostWr_cmd hr]
  exact present_illegal (s := s.wrote .cmd) hb hd

/-- Settles O4: no such word has the fields of a command. -/
theorem illegalWordRaisesIllegal : Obligations.IllegalWordRaisesIllegal :=
  ⟨fun _ _ hr hb hbad => step_illegal hr hb (decode_ne_ok_of_illegal hbad),
    fun _ hr hb => step_illegal hr hb (decode_ne_ok_of_illegal (.inl (by decide))), rfl⟩

/-- R85's sets, opcode by opcode, are those of the well-formedness check. -/
theorem wf_eq_false_iff (i : Instr) : i.wf = false ↔ lengthError i := by
  cases i <;> simp [Instr.wf, lenIsZero, lenIsKey, lenIsData, lengthError, Instr.opc, Instr.lenField]

/-- Settles O5: the length is the first check on a decoded command (R102 check 3). -/
theorem wrongLengthRaisesBadlen : Obligations.WrongLengthRaisesBadlen := by
  refine ⟨fun s i hp hlen => ?_, rfl⟩
  rw [exec_of_idle i hp, issue, (wf_eq_false_iff i).mpr hlen]
  rfl

end Sys2Proof.Machine
end

section
/-! Loading a register group (spec/30_encoding.md R88): the host writes its words in order, and each write sets a word and its
bit of the write mask (R42). -/

namespace Sys2Proof.Machine

/-! A group and its mask after the first writes. -/

/-- A register group after the first `k` words of `B` have been written to it. -/
def withWords {n : Nat} (v : Vector Word n) (B : List Byte) (k : Nat) : Vector Word n :=
  Vector.ofFn fun j => if j.val < k then le32 B j else v[j]

@[simp] theorem withWords_zero {n : Nat} (v : Vector Word n) (B : List Byte) : withWords v B 0 = v := by
  simp [withWords]

theorem withWords_all {n : Nat} (v : Vector Word n) (B : List Byte) : withWords v B n = groupOfBytes n B := by
  simp [withWords, groupOfBytes]

theorem withWords_set {n : Nat} (v : Vector Word n) (B : List Byte) (j : Fin n) :
    (withWords v B j).set j (le32 B j) = withWords v B (j + 1) := by
  apply Vector.ext
  intro i hi
  simp only [withWords, Vector.getElem_set, Vector.getElem_ofFn]
  by_cases h : j.val = i
  · subst h
    simp
  · simp [h, show i < j.val + 1 ↔ i < j.val by omega]

/-- A write mask after the first `k` registers of its group have been written. -/
def withMarks {n : Nat} (m : BitVec n) (k : Nat) : BitVec n := m ||| BitVec.ofNat n (2 ^ k - 1)

@[simp] theorem withMarks_zero {n : Nat} (m : BitVec n) : withMarks m 0 = m := by
  simp [withMarks]

theorem withMarks_getLsbD {n : Nat} (m : BitVec n) (k i : Nat) (hi : i < n) :
    (withMarks m k).getLsbD i = (m.getLsbD i || decide (i < k)) := by
  rw [withMarks, BitVec.getLsbD_or, BitVec.getLsbD_ofNat, Nat.testBit_two_pow_sub_one]
  simp [hi]

/-- All registers written: the mask is full (R32, R33). -/
theorem withMarks_all {n : Nat} (m : BitVec n) : withMarks m n = BitVec.allOnes n :=
  (mask_full_iff _).mpr fun j => by rw [withMarks_getLsbD m n j j.isLt]; simp

theorem maskSet_withMarks {n : Nat} (m : BitVec n) (j : Nat) : maskSet (withMarks m j) j = withMarks m (j + 1) := by
  apply BitVec.eq_of_getLsbD_eq
  intro i hi
  rw [maskSet, BitVec.getLsbD_or, withMarks_getLsbD m j i hi, withMarks_getLsbD m (j + 1) i hi, BitVec.getLsbD_ofNat,
    Nat.testBit_two_pow, Bool.or_assoc]
  simp [hi, Nat.le_iff_lt_or_eq, eq_comm]

/-! Runs of writes. -/

/-- A write each to `n` registers in order, `st` giving the state after each. -/
theorem Runs.hostWrs {n : Nat} (r : Fin n → Reg) (v : Fin n → Word) (st : Nat → State)
    (h : ∀ j : Fin n, Runs (st j) [Machine.hostWr (r j) (v j)] (st (j + 1)) [] []) :
    Runs (st 0) (List.ofFn fun j => Machine.hostWr (r j) (v j)) (st n) [] [] := by
  induction n with
  | zero => exact Runs.nil _
  | succ n ih =>
    rw [List.ofFn_succ', List.concat_eq_append]
    exact (ih (fun j => r j.castSucc) (fun j => v j.castSucc) fun j => h j.castSucc).append (h (Fin.last n))

/-- The words of `B` written to a group in order; `put` is the state as a function of the group and its mask, and `h` says
what one write does. -/
theorem Runs.loadGroup {n : Nat} (r : Fin n → Reg) (put : Vector Word n → BitVec n → State)
    (h : ∀ vs m j v, Runs (put vs m) [Machine.hostWr (r j) v] (put (vs.set j v) (maskSet m j)) [] [])
    (vs : Vector Word n) (m : BitVec n) (B : List Byte) :
    Runs (put vs m) (List.ofFn fun j => Machine.hostWr (r j) (le32 B j)) (put (groupOfBytes n B) (BitVec.allOnes n)) [] [] := by
  have hrun := Runs.hostWrs r (fun j => le32 B j) (fun k => put (withWords vs B k) (withMarks m k)) fun j => by
    simpa only [withWords_set, maskSet_withMarks] using h (withWords vs B j) (withMarks m j) j (le32 B j)
  simpa only [withWords_zero, withMarks_zero, withWords_all, withMarks_all] using hrun

/-! The loads, with no command in flight. -/

section
variable {s : State} (hr : s.rstN = true) (hp : s.pending = none)
include hr hp

theorem Runs.hostWr_key (hl : s.phase.isAead = false) (j : Fin 8) (v : Word) :
    Runs s [Machine.hostWr (.key j) v] { s with key := s.key.set j v, kmask := maskSet s.kmask j } [] [] := by
  have h := Runs.hostWr hr (r := .key j) (by simp) v
  simpa [writeData, unlessLocked, unlessBusy, (busy_eq_false s).mpr hp, hl] using h

theorem Runs.hostWr_nonce (hl : s.phase.isAead = false) (j : Fin 3) (v : Word) :
    Runs s [Machine.hostWr (.nonce j) v] { s with nonce := s.nonce.set j v, nmask := maskSet s.nmask j } [] [] := by
  have h := Runs.hostWr hr (r := .nonce j) (by simp) v
  simpa [writeData, unlessLocked, unlessBusy, (busy_eq_false s).mpr hp, hl] using h

theorem Runs.hostWr_rtag (j : Fin 4) (v : Word) :
    Runs s [Machine.hostWr (.rtag j) v] { s with rtag := s.rtag.set j v, rmask := maskSet s.rmask j } [] [] := by
  have h := Runs.hostWr hr (r := .rtag j) (by simp) v
  simpa [writeData, unlessBusy, (busy_eq_false s).mpr hp] using h

/-- `ldkey K` out of an AEAD phase. -/
theorem Runs.ldkey (hl : s.phase.isAead = false) (K : List Byte) :
    Runs s (ldkey K) { s with key := groupOfBytes 8 K, kmask := BitVec.allOnes 8 } [] [] :=
  Runs.loadGroup Reg.key (fun vs m => { s with key := vs, kmask := m })
    (fun vs m => Runs.hostWr_key (s := { s with key := vs, kmask := m }) hr hp hl) s.key s.kmask K

/-- `ldnonce N` out of an AEAD phase. -/
theorem Runs.ldnonce (hl : s.phase.isAead = false) (N : List Byte) :
    Runs s (ldnonce N) { s with nonce := groupOfBytes 3 N, nmask := BitVec.allOnes 3 } [] [] :=
  Runs.loadGroup Reg.nonce (fun vs m => { s with nonce := vs, nmask := m })
    (fun vs m => Runs.hostWr_nonce (s := { s with nonce := vs, nmask := m }) hr hp hl) s.nonce s.nmask N

/-- `ldrtag T` in any phase. -/
theorem Runs.ldrtag (T : List Byte) :
    Runs s (ldrtag T) { s with rtag := groupOfBytes 4 T, rmask := BitVec.allOnes 4 } [] [] :=
  Runs.loadGroup Reg.rtag (fun vs m => { s with rtag := vs, rmask := m })
    (fun vs m => Runs.hostWr_rtag (s := { s with rtag := vs, rmask := m }) hr hp) s.rtag s.rmask T

end

/-- A run that yields nothing to the host, as a statement about the machine itself. -/
theorem Runs.exists_port {s t : State} {is : List Input} {ds gs : List Word} (h : Runs s is t ds gs) :
    ∃ log, Host.Core.run core is.length (s.given is) = .next (t.port [] log) := by
  obtain ⟨u, hrun, hu⟩ := h.exists_next
  exact ⟨u.transfers, hu ▸ hrun⟩

/-- Settles O17: the writes of the key run first, and those of the nonce from where they end. -/
theorem keyAndNonceAreLoaded : Obligations.KeyAndNonceAreLoaded := by
  intro s K N hr hb hl hK hN
  have hp := (busy_eq_false s).mp hb
  have hkey := Runs.ldkey hr hp hl K
  have hnonce := Runs.ldnonce (s := { s with key := groupOfBytes 8 K, kmask := BitVec.allOnes 8 }) hr hp hl N
  obtain ⟨log, hrun⟩ := (hkey.append hnonce).exists_port
  exact ⟨_, hrun, groupBytes_groupOfBytes 8 K hK, groupBytes_groupOfBytes 3 N hN, rfl, rfl, rfl⟩

/-- Settles O18: the words that `B` covers are written, and they hold `B`. -/
theorem inputBufferIsLoaded : Obligations.InputBufferIsLoaded := by
  intro s B hr hb hB
  obtain ⟨log, hrun⟩ := (Runs.lddin hr ((busy_eq_false s).mp hb) B hB).exists_port
  refine ⟨_, hrun, slice_loadedDin B s.din hB, fun j => ?_, rfl⟩
  simp [State.port, loadedDin]

/-- Settles O19: writes to RTAG are locked by no phase. -/
theorem receivedTagIsLoaded : Obligations.ReceivedTagIsLoaded := by
  intro s T hr hb hT
  obtain ⟨log, hrun⟩ := (Runs.ldrtag hr ((busy_eq_false s).mp hb) T).exists_port
  exact ⟨_, hrun, groupBytes_groupOfBytes 4 T hT, rfl, rfl⟩

end Sys2Proof.Machine
end

section
/-! The life of a command (spec/40_command_issue.md R100 to R104): the checks on its word, acceptance or rejection, the step
that runs it, and its completion. -/

namespace Sys2Proof.Machine

/-! Presentation. -/

/-- The phases of R108's table are those the sequence check lets through. -/
theorem admitted_iff (i : Instr) (p : Phase) : admitted i p = true ↔ p ∈ admittedIn i := by
  cases i with
  | abort len => cases p <;> simp [admitted, admittedIn]
  | zeroize len => cases p <;> simp [admitted, admittedIn]
  | _ => simp [admitted, admittedIn, or_assoc]

/-- The commands R109 names, by opcode. -/
theorem needsKeyNonce_iff (i : Instr) :
    needsKeyNonce i = true ↔ i.opc ∈ ([0x01, 0x02, 0x08, 0x09] : List (BitVec 5)) := by
  cases i <;> simp [needsKeyNonce, Instr.opc]

/-- Checks 3 to 6 of R102 as one chain of conditions, the first that applies deciding. -/
theorem issue_eq (i : Instr) (s : State) : issue i s =
    if i.wf = false then raiseError .badlen s
    else if admitted i s.phase = false then raiseError .sequence s
    else if needsKeyNonce i = true ∧ s.keyv = false then raiseError .key s
    else if needsKeyNonce i = true ∧ s.noncev = false then raiseError .nonce s
    else { s with pending := some i } := by
  simp only [issue, accept, Bool.not_eq_true', Bool.and_eq_true]

@[simp] theorem wrote_busy (r : Reg) (s : State) : (s.wrote r).busy = s.busy := rfl

/-- Settles O6: the first two checks are on the word, the other four on the command it decodes to. -/
theorem checksApplyInOrder : Obligations.ChecksApplyInOrder := by
  refine ⟨wf_eq_false_iff, admitted_iff, needsKeyNonce_iff, fun s w hr => ?_⟩
  rw [step_facing, perform_hostWr_cmd hr]
  rcases present_cases w (s.wrote .cmd) with ⟨hb, h⟩ | ⟨hb, ⟨e, hd⟩, h⟩ | ⟨hb, i, hd, h, hi⟩ <;> rw [wrote_busy] at hb
  · rw [h, if_pos hb]
  · rw [h, if_neg (ne_true_of_eq_false hb), hd]
  · rw [h, hi, issue_eq, if_neg (ne_true_of_eq_false hb), hd]
    rfl

/-- Settles O7: a command that passes its checks is accepted. -/
theorem acceptanceSetsPendingOnly : Obligations.AcceptanceSetsPendingOnly := by
  intro s i hp hi
  refine ⟨accept i s, ?_, rfl, rfl, rfl, rfl, rfl⟩
  rw [exec_of_idle i hp, issue_of_issuable hi]

/-- Settles O8: what is not accepted raises one of the four errors, and raising an error does no more. -/
theorem rejectionChangesOnlyErr : Obligations.RejectionChangesOnlyErr := by
  intro s t i hp ht hpt
  rw [exec_of_idle i hp] at ht
  cases ht
  rcases issue_cases i s with ⟨-, heq⟩ | ⟨-, code, hcode, heq⟩ <;> rw [heq] at hpt ⊢
  · simp at hpt
  · exact ⟨rfl, hcode⟩

/-! The step that runs a command. -/

/-- With no command in flight a word that decodes to a command is that command, presented (R101). -/
theorem present_of_decode {s : State} {w : Word} {i : Instr} (hb : s.busy = false) (hd : decode w = .ok i) :
    present w s = exec i s := by
  simp [present, hb, hd]

/-- The core's turn runs the command in flight (R104). -/
theorem perform_coreTurn_of_pending {s : State} {i : Instr} (hr : s.rstN = true) (hp : s.pending = some i) :
    perform .coreTurn s = exec i s := by
  rw [perform_coreTurn hr, coreStep, hp]

/-- The core's turn with no command in flight is a wait (R233). -/
theorem perform_coreTurn_of_idle {s : State} (hr : s.rstN = true) (hp : s.pending = none) :
    perform .coreTurn s = .next s := by
  rw [perform_coreTurn hr, coreStep, hp]

/-- Settles O9: presentation and the core's turn both call `exec`. -/
theorem stepRunsTheCommand : Obligations.StepRunsTheCommand := by
  refine ⟨fun s w i hr hb hd => ?_, fun s i hr hp => ?_, fun s i hr hp hi => ?_⟩
  · rw [step_facing, perform_hostWr_cmd hr]
    exact present_of_decode (s := s.wrote .cmd) hb hd
  · rw [step_facing, perform_coreTurn_of_pending hr hp]
  · rw [step_nil hi, perform_coreTurn_of_pending hr hp]

/-! Completion. -/

theorem finish_of_noError {e : State × Option ErrCode} (h : e.2 = none) :
    finish e = { e.1 with pending := none, done := true } := by
  rw [← Prod.mk.eta (p := e), h, finish_none]

theorem finish_of_error {e : State × Option ErrCode} {code : ErrCode} (h : e.2 = some code) :
    finish e = raiseError code { e.1 with pending := none } := by
  rw [← Prod.mk.eta (p := e), h, finish_some]

/-- What a completion leaves in DONE, ERR and ERRCODE: DONE set, or AUTH raised by a verify (R104). -/
theorem finish_effectOf_status (i : Instr) (s : State) :
    ((finish (effectOf i s)).done = true ∧ (finish (effectOf i s)).err = s.err ∧
      (finish (effectOf i s)).errcode = s.errcode) ∨
    ((∃ len, i = .aeadVerify len) ∧ (finish (effectOf i s)).done = s.done ∧ (finish (effectOf i s)).err = true ∧
      (finish (effectOf i s)).errcode = .auth) := by
  obtain ⟨-, -, -, -, -, -, hdone, herr, hcode⟩ := effectOf_port i s
  rcases effectOf_error i s with hn | ⟨hv, ha⟩
  · rw [finish_of_noError hn]
    exact .inl ⟨rfl, herr, hcode⟩
  · rw [finish_of_error ha]
    exact .inr ⟨hv, hdone, rfl, rfl⟩

/-- Settles O28: the turn is the command's completion, which always ends it. -/
theorem completionEndsTheCommand : Obligations.CompletionEndsTheCommand := by
  refine ⟨fun s i hr hp => ⟨finish (effectOf i s), ?_, finish_pending _, ?_, finish_effectOf_status i s⟩,
    fun s hr hp => ?_⟩
  · rw [step_facing, perform_coreTurn_of_pending hr hp, exec_of_pending hp]
  · exact (busy_eq_false _).mpr (finish_pending _)
  · rw [step_facing, perform_coreTurn_of_idle hr hp]

end Sys2Proof.Machine
end

section
/-! While a command is in flight (spec/40_command_issue.md R105 to R107): what accesses do and read, that no access but a reset
ends it, and that the core's turn, which does, comes within a bound. -/

namespace Sys2Proof.Machine

/-! Accesses while busy. -/

/-- Settles O10: the inputs are written through `unlessBusy`, and CMD is presented; STATUS and SRST look at no BUSY. -/
theorem busyRefusesInputWrites : Obligations.BusyRefusesInputWrites := by
  intro s off v hr hb ha
  rw [step_facing, perform_write_aligned hr ha]
  have hb' : (answer (.write off false) s).busy = true := hb
  generalize answer (.write off false) s = a at hb' ⊢
  cases regAt off with
  | cmd => exact present_of_busy hb' v
  | ctrl => simp [writeData, writeCtrl, unlessBusy_of_busy hb']
  | counter | key | nonce | rtag | din => simp [writeData, unlessLocked, unlessBusy_of_busy hb']
  | _ => rfl

/-- A busy read of a result register draws a free value (R107). -/
theorem readReg_free {s : State} {r : Reg} (hb : s.busy = true) (hf : r.isResult = true) :
    readReg r s = (Config.busyReadValue s.draws, { s with draws := s.draws + 1 }) := by
  simp [readReg, hb, hf]

/-- The registers R107 names. -/
theorem isResult_iff (r : Reg) : r.isResult = true ↔
    r = .counter ∨ r = .aadlenLo ∨ r = .aadlenHi ∨ r = .ctlenLo ∨ r = .ctlenHi ∨ (∃ j, r = .tag j) ∨ ∃ j, r = .dout j := by
  cases r <;> simp [Reg.isResult]

/-- Settles O11: a read asks whether the register is a result, and STATUS is none. -/
theorem busyReadsOfResultsAreFree : Obligations.BusyReadsOfResultsAreFree := by
  refine ⟨fun s r hr hb _ => ?_, fun s hb => ?_, isResult_iff⟩
  · rw [step_facing]
    split
    · next hf => rw [hostRd, perform_read_aligned hr (offset_aligned r), regAt_offset, readReg_free hb hf]
    · next hd => exact perform_hostRd hr (by simp [hd])
  · obtain ⟨-, -, hstatus⟩ := statusFieldsAtTheirBits
    obtain ⟨hbusy, -, -, -, -, -, hphase, -⟩ := hstatus s
    exact ⟨hbusy.trans hb, hphase⟩

/-! What the port keeps. -/

/-- `t` has the inputs still to come and the level of `rst_n` that `s` has. -/
structure SamePort (s t : State) : Prop where
  inputs : t.inputs = s.inputs
  rstN : t.rstN = s.rstN

theorem finish_samePort (e : State × Option ErrCode) : SamePort e.1 (finish e) := by
  obtain ⟨s, _ | code⟩ := e <;> exact ⟨rfl, rfl⟩

theorem completion_samePort (i : Instr) (s : State) : SamePort s (finish (effectOf i s)) := by
  obtain ⟨hin, -, -, hr, -⟩ := effectOf_port i s
  obtain ⟨hin', hr'⟩ := finish_samePort (effectOf i s)
  exact ⟨hin'.trans hin, hr'.trans hr⟩

theorem present_samePort {s t : State} {w : Word} (ht : present w s = .next t) : SamePort s t := by
  rcases present_cases w s with ⟨-, h⟩ | ⟨-, -, h⟩ | ⟨-, i, -, h, hi⟩
  · cases h.symm.trans ht
    exact ⟨rfl, rfl⟩
  · cases h.symm.trans ht
    exact ⟨rfl, rfl⟩
  · cases hi.symm.trans (h.symm.trans ht)
    rcases issue_cases i s with ⟨-, heq⟩ | ⟨-, code, -, heq⟩ <;> rw [heq] <;> exact ⟨rfl, rfl⟩

theorem hostWrite_samePort {s t : State} {off : BitVec 9} {width : Nat} {v : Word}
    (ht : hostWrite off width v s = .next t) : SamePort s t := by
  rcases hostWrite_cases off width v s with ⟨-, h⟩ | ⟨-, -, h⟩ | ⟨-, -, h⟩ <;> rw [h] at ht
  · cases ht
    exact ⟨rfl, rfl⟩
  · obtain ⟨hin, hr⟩ := present_samePort ht
    exact ⟨hin, hr⟩
  · cases ht
    obtain ⟨hin, -, -, hr⟩ := writeData_port (regAt off) v (answer (.write off false) s)
    exact ⟨hin, hr⟩

theorem hostRead_samePort (off : BitVec 9) (width : Nat) (s : State) : SamePort s (hostRead off width s) := by
  obtain ⟨_, _, _, _, _, heq⟩ := hostRead_frame off width s
  rw [heq]
  exact ⟨rfl, rfl⟩

/-- No input takes another with it (R68). -/
theorem perform_inputs {s t : State} {i : Input} (ht : perform i s = .next t) : t.inputs = s.inputs := by
  cases hr : s.rstN with
  | false =>
    rw [perform_held hr] at ht
    cases ht
    cases i <;> rfl
  | true =>
    cases i with
    | read off width =>
      cases (perform_read hr off width).symm.trans ht
      exact (hostRead_samePort off width s).inputs
    | write off width v => exact (hostWrite_samePort ((perform_write hr off width v).symm.trans ht)).inputs
    | coreTurn =>
      cases hp : s.pending with
      | none =>
        cases (perform_coreTurn_of_idle hr hp).symm.trans ht
        rfl
      | some i =>
        cases (exec_of_pending hp).symm.trans ((perform_coreTurn_of_pending hr hp).symm.trans ht)
        exact (completion_samePort i s).inputs
    | rstN level =>
      rw [perform_rstN] at ht
      cases ht
      split <;> rfl

/-! The command stays in flight until the core's turn or a reset. -/

/-- While busy no write but SRST ends the command in flight (R106, R231). -/
theorem writeData_pending_of_busy {s : State} (hb : s.busy = true) {r : Reg} {v : Word}
    (hs : ¬(r = .ctrl ∧ v.getLsbD 31 = true)) : (writeData r v s).pending = s.pending := by
  cases r with
  | ctrl => rw [writeData, writeCtrl, if_neg fun hv => hs ⟨rfl, hv⟩, unlessBusy_of_busy hb, raiseError_pending]
  | status => rw [writeData, writeStatus_eq]
  | counter | key | nonce | rtag | din => simp [writeData, unlessLocked, unlessBusy_of_busy hb]
  | _ => rfl

/-- A write that is performed is aligned and of a whole word (R63). -/
theorem aligned_of_misaccess_eq_false {off : BitVec 9} {width : Nat} (h : misaccess off width = false) :
    off.toNat % 4 = 0 ∧ width = 4 := by
  simpa [misaccess] using h

theorem hostWrite_pending_of_busy {s t : State} (hb : s.busy = true) {off : BitVec 9} {width : Nat} {v : Word}
    (hs : ¬(Input.write off width v).resets) (ht : hostWrite off width v s = .next t) : t.pending = s.pending := by
  rcases hostWrite_cases off width v s with ⟨-, h⟩ | ⟨-, -, h⟩ | ⟨hm, -, h⟩ <;> rw [h] at ht
  · cases ht
    rfl
  · cases (present_of_busy (s := answer _ s) hb v).symm.trans ht
    rfl
  · cases ht
    refine writeData_pending_of_busy (s := answer _ s) hb fun ⟨hctrl, hv⟩ => hs ?_
    obtain ⟨ha, hw⟩ := aligned_of_misaccess_eq_false hm
    have hoff := offset_regAt ha (by simp [hctrl])
    rw [hctrl] at hoff
    exact ⟨hoff.symm, hw, hv⟩

/-- An input that is neither a reset nor the core's turn leaves the command in flight and `rst_n` high. -/
theorem perform_keeps_pending {s t : State} {i : Input} (hr : s.rstN = true) (hb : s.busy = true) (hs : ¬i.resets)
    (hturn : i ≠ .coreTurn) (ht : perform i s = .next t) : t.rstN = true ∧ t.pending = s.pending := by
  cases i with
  | read off width =>
    cases (perform_read hr off width).symm.trans ht
    obtain ⟨_, _, _, _, _, heq⟩ := hostRead_frame off width s
    rw [heq]
    exact ⟨hr, rfl⟩
  | write off width v =>
    have hw := (perform_write hr off width v).symm.trans ht
    exact ⟨(hostWrite_samePort hw).rstN.trans hr, hostWrite_pending_of_busy hb hs hw⟩
  | coreTurn => exact absurd rfl hturn
  | rstN level =>
    obtain rfl : level = true := by simpa [Input.resets] using hs
    rw [perform_rstN, hr] at ht
    cases ht
    exact ⟨hr, rfl⟩

/-! The turn comes. -/

/-- The core has the next turn: the turn is the next input, or no input waits (R105; log entry 2). -/
def State.coreIsNext (s : State) : Prop := s.inputs = [] ∨ s.inputs.head? = some .coreTurn

/-- The step at the core's turn runs the command in flight (R104). -/
theorem step_of_coreIsNext {s : State} {i : Instr} (hr : s.rstN = true) (hp : s.pending = some i) (hn : s.coreIsNext) :
    step s = exec i { s with inputs := s.inputs.tail } := by
  obtain hi | hi := hn
  · rw [step_nil hi, perform_coreTurn_of_pending hr hp]
    cases s
    cases hi
    rfl
  · obtain ⟨rest, hi⟩ := List.head?_eq_some_iff.mp hi
    rw [step_cons hi, perform_coreTurn_of_pending (s := { s with inputs := rest }) hr hp, hi, List.tail_cons]

/-- With no reset waiting, the core's turn comes while the command is in flight, after at most the inputs that wait. -/
theorem run_to_coreTurn {s : State} {i : Instr} (hr : s.rstN = true) (hp : s.pending = some i)
    (hs : ∀ x ∈ s.inputs, ¬x.resets) :
    ∃ k u, k ≤ s.inputs.length ∧ Host.Core.run core k s = .next u ∧ u.rstN = true ∧ u.pending = some i ∧
      u.coreIsNext := by
  induction hi : s.inputs generalizing s with
  | nil => exact ⟨0, s, le_refl _, rfl, hr, hp, .inl hi⟩
  | cons x rest ih =>
    rw [hi, List.forall_mem_cons] at hs
    obtain ⟨hsx, hsrest⟩ := hs
    by_cases hx : x = .coreTurn
    · exact ⟨0, s, Nat.zero_le _, rfl, hr, hp, .inr (by rw [hi, hx]; rfl)⟩
    · obtain ⟨t, ht⟩ := perform_next x { s with inputs := rest }
      have hin : t.inputs = rest := perform_inputs ht
      obtain ⟨hr', hp'⟩ :=
        perform_keeps_pending (s := { s with inputs := rest }) hr ((busy_iff s).mpr ⟨i, hp⟩) hsx hx ht
      obtain ⟨k, u, hk, hrun, hu⟩ := ih hr' (hp'.trans hp) (hin ▸ hsrest) hin
      exact ⟨k + 1, u, Nat.succ_le_succ hk, (run_succ k ((step_cons hi).trans ht)).trans hrun, hu⟩

/-- After the core's turn no command is in flight, whatever the level of `rst_n` (R104, R230). -/
theorem coreTurn_clears_pending {s t : State} (ht : perform .coreTurn s = .next t) : t.pending = none := by
  cases hr : s.rstN with
  | false =>
    rw [perform_held hr] at ht
    cases ht
    rfl
  | true =>
    cases hp : s.pending with
    | none =>
      cases (perform_coreTurn_of_idle hr hp).symm.trans ht
      exact hp
    | some i =>
      cases (exec_of_pending hp).symm.trans ((perform_coreTurn_of_pending hr hp).symm.trans ht)
      exact finish_pending _

/-- Every waiting input is taken, and the turn that follows leaves no command in flight. -/
theorem run_past_inputs (s : State) :
    ∃ t, Host.Core.run core (s.inputs.length + 1) s = .next t ∧ t.inputs = [] ∧ t.pending = none := by
  induction hi : s.inputs generalizing s with
  | nil =>
    obtain ⟨t, ht⟩ := perform_next .coreTurn s
    exact ⟨t, run_succ 0 ((step_nil hi).trans ht), (perform_inputs ht).trans hi, coreTurn_clears_pending ht⟩
  | cons x rest ih =>
    obtain ⟨t, ht⟩ := perform_next x { s with inputs := rest }
    obtain ⟨u, hrun, hu⟩ := ih t (perform_inputs ht)
    exact ⟨u, (run_succ _ ((step_cons hi).trans ht)).trans hrun, hu⟩

/-- Settles O50: the inputs before the core's turn keep the command in flight, and the turn completes it. -/
theorem acceptedCommandsComplete : Obligations.AcceptedCommandsComplete := by
  refine ⟨fun s i hr hp hs => ?_, run_past_inputs⟩
  obtain ⟨k, u, hk, hrun, hru, hpu, hn⟩ := run_to_coreTurn hr hp hs
  have hstep := step_of_coreIsNext hru hpu hn
  exact ⟨k, u, _, hk, hrun, hru, hpu, hstep, hstep.trans (exec_of_pending hpu), finish_pending _⟩

end Sys2Proof.Machine
end

section
/-! ChaCha20 (spec/41_chacha20.md): the counter step, the two CHACHA commands, `encrypt` as its own inverse, and the chunk
sequence of R128. What speaks of data of any length goes block by block (`block_induction`). -/

namespace Sys2Proof.Machine

/-! The counter and the two commands. -/

/-- CWRAP after a counter step records the wrap and keeps an earlier one (R131). -/
theorem counterStep_cwrap_iff (s : State) :
    (counterStep s).cwrap = true ↔ s.cwrap = true ∨ s.counter = 0xFFFFFFFF#32 := by
  simp

/-- Settles O31: at 2^32 - 1, and only there, the addition wraps. -/
theorem counterStepWraps : Obligations.CounterStepWraps := by
  intro s
  refine ⟨by simp, ?_, rfl⟩
  rw [counterStep_cwrap_iff, ← BitVec.toNat_inj]
  rfl

/-- Settles O29: DOUT is filled by the 64 bytes of the block. -/
theorem chachaBlockResult : Obligations.ChachaBlockResult := by
  intro s hp
  have hd := groupBytes_doutOf (s.keystream s.counter) (by simp)
  rw [length_keystream] at hd
  exact ⟨_, exec_of_pending hp, hd.trans (List.append_nil _), rfl⟩

/-- CWRAP after a streaming command: only a non-empty chunk steps the counter (R131). -/
theorem cwrapAfter_iff (s : State) (len : Nat) :
    s.cwrapAfter len = true ↔ s.cwrap = true ∨ (len ≠ 0 ∧ s.counter = 0xFFFFFFFF#32) := by
  by_cases h : len = 0
  · simp [State.cwrapAfter, h]
  · rw [State.cwrapAfter, if_neg h, counterStep_cwrap_iff]
    simp [h]

/-- DOUT after a streaming command: `encrypt` of the data at COUNTER, zero-filled (R38, R133). -/
theorem groupBytes_doutOf_streamOut (s : State) (len : Nat) (h : len ≤ 64) :
    groupBytes (doutOf (s.streamOut len)) =
      encrypt (groupBytes s.key) (groupBytes s.nonce) s.counter (s.dinBytes len) ++ zeros (64 - len) := by
  rw [groupBytes_doutOf _ (by rwa [length_streamOut s len h]), length_streamOut s len h, streamOut_eq_encrypt s len h]

/-- Settles O30: the completion's DOUT, COUNTER and CWRAP, each by its own lemma. -/
theorem chachaXorResult : Obligations.ChachaXorResult := by
  intro s len hp hlen
  exact ⟨_, exec_of_pending hp, groupBytes_doutOf_streamOut s _ hlen, rfl, cwrapAfter_iff s _, rfl⟩

/-! The worked examples. -/

/-- The words after one line of the quarter round: only `a` and `d` change (R123). -/
theorem quarterLine_getElem {a d : Fin 16} (h : a.val ≠ d.val) (b : Fin 16) (n : Nat) (x : ChaChaState) (i : Nat)
    (hi : i < 16) : (quarterLine a b d n x)[i] =
      if d.val = i then rotl (x[d.val] ^^^ (x[a.val] + x[b.val])) n
      else if a.val = i then x[a.val] + x[b.val] else x[i] := by
  simp [quarterLine, Vector.getElem_set, h]

/-- Settles O51: the quarter round by its lines, the block by evaluation. -/
theorem chachaWorkedExamples : Obligations.ChachaWorkedExamples := by
  refine ⟨fun x h0 h1 h2 h3 => ?_, by decide +kernel⟩
  simp [quarterRound, quarterLine_getElem, h0, h1, h2, h3, rotl]

/-! Data of any length. -/

/-- Induction over a byte string, block by block: nothing left, a last part, or a whole block and the rest (R126). -/
theorem block_induction {P : List Byte → Prop} (nil : P []) (last : ∀ d, 0 < d.length → d.length ≤ 64 → P d)
    (cons : ∀ C d, C.length = 64 → P d → P (C ++ d)) (d : List Byte) : P d := by
  by_cases hd : d.length ≤ 64
  · rcases Nat.eq_zero_or_pos d.length with h0 | h0
    · rwa [List.length_eq_zero_iff.mp h0]
    · exact last d h0 hd
  · rw [← List.take_append_drop 64 d]
    exact cons _ _ (by rw [List.length_take]; omega) (block_induction nil last cons (d.drop 64))
termination_by d.length
decreasing_by rw [List.length_drop]; omega

/-- One block's worth of data is exclusive-ored twice with the same bytes. -/
theorem encrypt_encrypt_single (k n : List Byte) (c : Word) (d : List Byte) (h0 : 0 < d.length) (h : d.length ≤ 64) :
    encrypt k n c (encrypt k n c d) = d := by
  have hks : d.length ≤ (slice (block k n c) 0 d.length).length := by rw [length_slice, length_block]; omega
  rw [encrypt_single k n c (encrypt k n c d) (by rwa [length_encrypt]) (by rwa [length_encrypt]), length_encrypt,
    encrypt_single k n c d h0 h, xorBytes_xorBytes _ _ hks]

/-- Settles O52: block by block, each under the same counter value both times. -/
theorem encryptIsSelfInverse : Obligations.EncryptIsSelfInverse := by
  intro k n c d
  induction d using block_induction generalizing c with
  | nil => rw [encrypt_nil, encrypt_nil]
  | last d h0 h => exact encrypt_encrypt_single k n c d h0 h
  | cons C d hC ih =>
    rw [encrypt_cons k n c C d hC, encrypt_cons k n c _ _ (by rw [length_encrypt, hC]), ih,
      encrypt_encrypt_single k n c C (by omega) (by omega)]

/-! The chunk sequence. -/

theorem chunks_cons (n : Nat) (hn : 0 < n) (C B : List Byte) (h : C.length = n) : chunks n (C ++ B) = C :: chunks n B := by
  rw [chunks_append n hn C B (by rw [h, Nat.mod_self]), chunks_single n C (by omega) (by omega), List.singleton_append]

/-- The lengths of the chunks depend on the length of the string alone. -/
theorem map_length_chunks (n : Nat) {A B : List Byte} (h : A.length = B.length) :
    (chunks n A).map List.length = (chunks n B).map List.length := by
  simp only [chunks, List.map_map, Function.comp_def, length_slice, h]

/-- What the `rddout`s of each chunk yield is the string, their reads having given its words (R88). -/
theorem rddoutResults_chunks (B : List Byte) : (rddoutResults ((chunks 64 B).map List.length) (wordsOf B)).flatten = B := by
  induction B using block_induction with
  | nil => simp [rddoutResults]
  | last B h0 h => simp [chunks_single 64 B h0 h, rddoutResults, ← length_wordsOf, rddoutResult_wordsOf]
  | cons C B hC ih =>
    rw [chunks_cons 64 (by decide) C B hC, List.map_cons, wordsOf_append C B (by omega), rddoutResults_cons,
      List.flatten_cons, ih]

theorem partLen_toNat (p : List Byte) (h : p.length ≤ 64) : (partLen p).toNat = p.length := by
  rw [partLen, BitVec.toNat_ofNat]
  omega

/-- A streaming command's output for the part just loaded (R38, R133). -/
theorem streamOut_loadedDin (s : State) (p : List Byte) (h : p.length ≤ 64) :
    ({ s with din := loadedDin p s.din } : State).streamOut p.length =
      encrypt (groupBytes s.key) (groupBytes s.nonce) s.counter p := by
  rw [streamOut_eq_encrypt _ _ h, State.dinBytes, slice_loadedDin p s.din h]

/-- A write to COUNTER out of an AEAD phase, with no command in flight (R34, R203). -/
theorem Runs.hostWr_counter {s : State} (hr : s.rstN = true) (hp : s.pending = none) (hl : s.phase.isAead = false)
    (c : Word) : Runs s [Machine.hostWr .counter c] { s with counter := c } [] [] := by
  have h := Runs.hostWr hr (r := .counter) (by simp) c
  simpa [writeData, unlessLocked, unlessBusy, (busy_eq_false s).mpr hp, hl] using h

theorem completed_pending (i : Instr) (s : State) : (completed i s).pending = none := finish_pending _

/-- `lddin p; run MNEMONIC, len(p); rddout len(p)` (R88), `u` being the core with `p` loaded: the command passes its checks
and puts `out`, as long as `p`, in DOUT. -/
theorem HostRuns.readPart {s u : State} {p out : List Byte} {cmd : BitVec 7 → Instr} (hload : Runs s (lddin p) u [] [])
    (hr : u.rstN = true) (hp : u.pending = none) (hi : issuable (cmd (partLen p)) u = true) (hl : p.length ≤ 64)
    (ho : out.length = p.length) (hd : (completed (cmd (partLen p)) u).dout = doutOf out) (polls : Nat) :
    HostRuns s (accesses (lddin p) ++ hostRun polls (cmd (partLen p)) ++ accesses (rddout p.length))
      (completed (cmd (partLen p)) u) (wordsOf out) [] := by
  have hrun := HostRuns.run hr hp (decodeAndEncodeAgree.1 (cmd (partLen p))) hi polls
  have hread := Runs.rddout ((completed_rstN _ _).trans hr) (completed_pending _ _) out (by omega) hd
  rw [ho] at hread
  exact (hload.host.append hrun).append hread.host

/-- CHACHA_XOR from acceptance to completion (R103, R133). -/
theorem completed_chachaXor (s : State) (len : BitVec 7) : completed (.chachaXor len) s =
    { s with dout := doutOf (s.streamOut len.toNat), counter := s.counterAfter len.toNat,
             cwrap := s.cwrapAfter len.toNat, pending := none, done := true } :=
  rfl

/-- The core after the part `p`, which is not empty, has gone through CHACHA_XOR (R131, R133). -/
def State.xored (s : State) (p : List Byte) : State :=
  { s with din := loadedDin p s.din, dout := doutOf (encrypt (groupBytes s.key) (groupBytes s.nonce) s.counter p),
           counter := s.counter + 1#32, cwrap := s.cwrap || s.counter == 0xFFFFFFFF#32, pending := none, done := true }

theorem xored_atRest {s : State} (hs : s.atRest) (p : List Byte) : (s.xored p).atRest := by
  obtain ⟨hr, hphase, -⟩ := hs
  exact ⟨hr, hphase, rfl⟩

theorem completed_chachaXor_loaded (s : State) {p : List Byte} (h0 : 0 < p.length) (hl : p.length ≤ 64) :
    completed (.chachaXor (partLen p)) { s with din := loadedDin p s.din } = s.xored p := by
  have hn : p.length ≠ 0 := by omega
  rw [completed_chachaXor, partLen_toNat p hl, streamOut_loadedDin s p hl]
  simp only [State.counterAfter, State.cwrapAfter, if_neg hn, counterStep_counter, counterStep_cwrap, State.xored]

/-- One part of R128's sequence. -/
theorem HostRuns.xorPart {s : State} {p : List Byte} (hs : s.atRest) (hk : s.keyed) (h0 : 0 < p.length)
    (hl : p.length ≤ 64) (polls : Nat) :
    HostRuns s (accesses (lddin p) ++ hostRun polls (.chachaXor (partLen p)) ++ accesses (rddout p.length)) (s.xored p)
      (wordsOf (encrypt (groupBytes s.key) (groupBytes s.nonce) s.counter p)) [] := by
  obtain ⟨hr, hphase, hp⟩ := hs
  have hwf : (Instr.chachaXor (partLen p)).wf = true := decide_eq_true (by rwa [partLen_toNat p hl])
  have hi : issuable (.chachaXor (partLen p)) s = true :=
    (issuable_iff _ s).mpr ⟨hwf, by rw [hphase]; rfl, fun _ => hk⟩
  have hdone := completed_chachaXor_loaded s h0 hl
  have hrun := HostRuns.readPart (cmd := .chachaXor) (Runs.lddin hr hp p hl) hr hp (by rwa [issuable_din]) hl
    (length_encrypt (groupBytes s.key) (groupBytes s.nonce) s.counter p) (by rw [hdone, State.xored]) polls
  rwa [hdone] at hrun

/-- R128 from the first chunk on: the reads give the words of `encrypt`, one counter value a chunk. -/
theorem HostRuns.xorChunks {s : State} (hs : s.atRest) (hk : s.keyed) (polls : Nat → Nat) (d : List Byte) :
    ∃ t, HostRuns s (feedRead polls .chachaXor (chunks 64 d)) t
        (wordsOf (encrypt (groupBytes s.key) (groupBytes s.nonce) s.counter d)) [] ∧
      t.counter = s.counter + BitVec.ofNat 32 (chunks 64 d).length ∧ t.err = s.err ∧ t.errcode = s.errcode := by
  induction d using block_induction generalizing s polls with
  | nil =>
    rw [chunks_nil, encrypt_nil]
    exact ⟨s, HostRuns.nil s, by simp, rfl, rfl⟩
  | last d h0 h =>
    rw [chunks_single 64 d h0 h]
    have hrun := (HostRuns.xorPart hs hk h0 h (polls 0)).append (HostRuns.nil (s.xored d))
    rw [List.append_nil (wordsOf _)] at hrun
    exact ⟨s.xored d, hrun, rfl, rfl, rfl⟩
  | cons C d hC ih =>
    obtain ⟨t, hrun, hc, he, hcode⟩ := ih (xored_atRest hs C) hk fun j => polls (j + 1)
    rw [chunks_cons 64 (by decide) C d hC, encrypt_cons _ _ _ C d hC, wordsOf_append _ _ (by rw [length_encrypt, hC])]
    refine ⟨t, (HostRuns.xorPart hs hk (by omega) (by omega) (polls 0)).append hrun, ?_, he, hcode⟩
    rw [hc, State.xored, List.length_cons, BitVec.add_assoc, ← BitVec.ofNat_add, Nat.add_comm 1]

/-- Settles O57: COUNTER is written first; the chunks then run one after another. -/
theorem chunkSequenceIsEncrypt : Obligations.ChunkSequenceIsEncrypt := by
  intro s polls c d hs hk
  obtain ⟨hr, hphase, hp⟩ := hs
  have hload := (Runs.hostWr_counter hr hp (by rw [hphase]; rfl) c).host
  obtain ⟨t, hrun, hc, he, hcode⟩ :=
    HostRuns.xorChunks (s := { s with counter := c }) ⟨hr, hphase, hp⟩ hk polls d
  obtain ⟨u, hu, hdout, -, hport⟩ := (hload.append hrun).exists_next
  rw [length_chunks] at hc
  refine ⟨u, hu, ?_, ?_, ?_, ?_⟩
  · rw [doutRead, hdout, List.nil_append, map_length_chunks 64 (length_encrypt _ _ c d).symm, rddoutResults_chunks]
  · rw [hport]; exact hc
  · rw [hport]; exact he
  · rw [hport]; exact hcode

end Sys2Proof.Machine
end

section
/-! Poly1305 (spec/42_poly1305.md): clamping, the halves of the one-time key, the chunk step and how POLY_UPDATE cuts its
bytes, the corner cases, and the part sequence of R148. -/

namespace Sys2Proof.Machine

/-! Clamping. -/

/-- The bits that the mask of R141 clears, by byte and bit of the byte. -/
theorem clampMask_getLsbD : ∀ i < 16, ∀ b < 8,
    (0x0FFFFFFC0FFFFFFC0FFFFFFC0FFFFFFF#128).getLsbD (8 * i + b) =
      !decide (((i = 3 ∨ i = 7 ∨ i = 11 ∨ i = 15) ∧ 4 ≤ b) ∨ ((i = 4 ∨ i = 8 ∨ i = 12) ∧ b < 2)) := by
  decide

/-- Settles O54: each bit of the value meets its bit of the mask. -/
theorem clampByBytes : Obligations.ClampByBytes := by
  refine ⟨fun _ => rfl, fun v i b hi hb => ?_⟩
  rw [clamp, BitVec.getLsbD_and, clampMask_getLsbD i hi b hb]
  split
  · next htop => simp [htop]
  · next htop =>
    split
    · next hbottom => simp [hbottom]
    · next hbottom => rw [decide_eq_false (not_or.mpr ⟨htop, hbottom⟩), Bool.not_false, Bool.and_true]

/-! The one-time key. -/

theorem slice_slice (B : List Byte) {a b n : Nat} (h : b ≤ n) : slice (slice B 0 n) a b = slice B a b := by
  simp only [slice, List.drop_zero, List.take_take, Nat.min_eq_left h]

/-- A string of at most 16 bytes has its value in 128 bits (R13). -/
theorem toNat_ofNat_le {B : List Byte} (h : B.length ≤ 16) : (BitVec.ofNat 128 (le B)).toNat = le B := by
  have hlt : 256 ^ B.length ≤ 2 ^ 128 := (Nat.pow_le_pow_right (by decide) h).trans_eq (by norm_num)
  rw [BitVec.toNat_ofNat, Nat.mod_eq_of_lt ((le_lt B).trans_le hlt)]

/-- R as a number (R141, R142). -/
theorem otkR_toNat (otk : List Byte) :
    (otkR otk).toNat = le (otk.take 16) &&& 0x0FFFFFFC0FFFFFFC0FFFFFFC0FFFFFFF := by
  rw [otkR, clamp, slice_eq_take, BitVec.toNat_and, toNat_ofNat_le (List.length_take_le 16 otk)]
  rfl

/-- S as a number (R142). -/
theorem otkS_toNat (otk : List Byte) : (otkS otk).toNat = le ((otk.drop 16).take 16) := by
  rw [otkS, slice, List.drop_take, toNat_ofNat_le (List.length_take_le 16 _)]

/-- Settles O32: the halves of `DIN.bytes[0:32]` are DIN's first two groups of 16 bytes. -/
theorem polyInitResult : Obligations.PolyInitResult := by
  intro s hp
  refine ⟨_, exec_of_pending hp, ?_, ?_, rfl, groupBytes_tagOf _ rfl, rfl, rfl⟩
  · show (otkR (s.dinBytes 32)).toNat = _
    rw [otkR_toNat, State.dinBytes, slice_eq_take, List.take_take]
    rfl
  · show (otkS (s.dinBytes 32)).toNat = _
    rw [otkS_toNat, State.dinBytes, slice_eq_take, List.drop_take, List.take_take]
    rfl

/-! Absorbing and the tag. -/

/-- The chunk step by number: the byte 0x01 after the chunk is a power of 2 (R143). -/
theorem chunkStep_eq (r : BitVec 128) (acc : Nat) (c : List Byte) :
    chunkStep r acc c = ((acc + le c + 2 ^ (8 * c.length)) * r.toNat) % (2 ^ 130 - 5) := by
  have hle : le (c ++ [1#8]) = le c + 2 ^ (8 * c.length) := by
    rw [le_append, pow_mul]
    simp [le]
  rw [chunkStep, hle, Nat.add_assoc, polyP]

/-- The chunks of a buffer's first `len` bytes: the full ones, and the bytes left over, if any (R144, R151). -/
theorem chunks_slice (B : List Byte) {len : Nat} (h : len ≤ B.length) :
    chunks 16 (slice B 0 len) = ((List.range (len / 16)).map fun i => slice B (16 * i) (16 * i + 16)) ++
      if len % 16 ≠ 0 then [slice B (16 * (len / 16)) len] else [] := by
  have hl : (slice B 0 len).length = len := by rw [length_slice]; omega
  have hfull : ∀ i ∈ List.range (len / 16),
      slice (slice B 0 len) (16 * i) (min (16 * i + 16) len) = slice B (16 * i) (16 * i + 16) := by
    intro i hi
    have := List.mem_range.mp hi
    rw [slice_slice B (by omega), Nat.min_eq_left (by omega)]
  rw [chunks, hl]
  split
  · next hrest =>
    rw [show (len + 16 - 1) / 16 = len / 16 + 1 by omega, List.range_succ, List.map_append, List.map_congr_left hfull,
      List.map_singleton, Nat.min_eq_right (by omega), slice_slice B (le_refl len)]
  · rw [show (len + 16 - 1) / 16 = len / 16 by omega, List.map_congr_left hfull, List.append_nil]

/-- Settles O33: the chunks of `DIN.bytes[0:LEN]` are the full ones of DIN and the rest. -/
theorem polyUpdateResult : Obligations.PolyUpdateResult := by
  refine ⟨fun r acc c _ _ => ⟨chunkStep_eq r acc c, chunkStep_lt r acc c⟩, fun s len hp hlen => ?_⟩
  refine ⟨_, exec_of_pending hp, ?_, ?_, rfl⟩
  · show absorb s.polyR s.acc (chunks 16 (slice (groupBytes s.din) 0 len.toNat)) = _
    rw [chunks_slice _ (by simpa using hlen), absorb_append]
    simp only [absorb, List.foldl_map]
    by_cases hrest : len.toNat % 16 ≠ 0
    · simp only [if_pos hrest, List.foldl_cons, List.foldl_nil]
    · simp only [if_neg hrest, List.foldl_nil]
  · show (if len.toNat % 16 = 0 then s.phase else .macTail) = _
    rw [ite_not]

/-- The tag as a number: the carry out of bit 127 is dropped (R144). -/
theorem le_tagBytes (acc : Nat) (sv : BitVec 128) : le (tagBytes acc sv) = (acc + sv.toNat) % 2 ^ 128 := by
  rw [tagBytes, le_leBytes]
  exact Nat.mod_mod _ _

/-- Settles O34: TAG holds the 16 bytes of the tag. -/
theorem polyFinalResult : Obligations.PolyFinalResult := by
  intro s hp
  refine ⟨_, exec_of_pending hp, ?_, rfl⟩
  show le (groupBytes (tagOf (tagBytes s.acc s.polyS))) = _
  rw [groupBytes_tagOf _ (length_tagBytes _ _), le_tagBytes]

/-! The corner cases. -/

/-- With nothing accumulated the tag is the second half of the one-time key (R146). -/
theorem tagBytes_zero_otkS (otk : List Byte) (h : otk.length = 32) : tagBytes 0 (otkS otk) = slice otk 16 32 := by
  have hl : (slice otk 16 32).length = 16 := by simp [length_slice, h]
  apply eq_of_le_eq (by rw [hl, length_tagBytes])
  rw [le_tagBytes, Nat.zero_add, Nat.mod_eq_of_lt (otkS otk).isLt, otkS, toNat_ofNat_le hl.le]

/-- Under `R = 0` nothing accumulates (R146). -/
theorem absorb_zero (cs : List (List Byte)) : absorb 0#128 0 cs = 0 := by
  induction cs with
  | nil => rfl
  | cons c cs ih =>
    have hstep : chunkStep 0#128 0 c = 0 := by rw [chunkStep, BitVec.toNat_zero, Nat.mul_zero, Nat.zero_mod]
    simpa only [absorb, List.foldl_cons, hstep] using ih

/-- Under `R = 0` every message has the tag S (R146). -/
theorem poly1305_of_otkR_zero (otk m : List Byte) (h : otk.length = 32) (hR : otkR otk = 0#128) :
    poly1305 otk m = slice otk 16 32 := by
  rw [poly1305, hR, absorb_zero, tagBytes_zero_otkS otk h]

/-- Settles O55: the corner cases by the lemmas above, the examples by evaluation. -/
theorem polyCornerCases : Obligations.PolyCornerCases := by
  refine ⟨fun otk h => ?_, poly1305_of_otkR_zero, fun m => ?_, by decide, le_tagBytes, by decide +kernel,
    by decide +kernel⟩
  · rw [poly1305, chunks_nil]
    exact tagBytes_zero_otkS otk h
  · exact poly1305_of_otkR_zero (zeros 32) m (length_zeros 32) (by decide)

/-! The part sequence. -/

/-- A command that needs neither key nor nonce passes its checks by its length and the phase (R102, R109). -/
theorem issuable_of_keyless {i : Instr} {s : State} (hk : needsKeyNonce i = false) (hwf : i.wf = true)
    (ha : admitted i s.phase = true) : issuable i s = true := by
  simp [issuable, hk, hwf, ha]

/-- `lddin B; run MNEMONIC, L` (R88) of a command that passes its checks. -/
theorem HostRuns.loadRun {s : State} (hr : s.rstN = true) (hp : s.pending = none) {B : List Byte} (hB : B.length ≤ 64)
    {i : Instr} (hi : issuable i s = true) (polls : Nat) :
    HostRuns s (accesses (lddin B) ++ hostRun polls i) (completed i { s with din := loadedDin B s.din }) [] [] :=
  (Runs.lddin hr hp B hB).host.append
    (HostRuns.run (s := { s with din := loadedDin B s.din }) hr hp (decodeAndEncodeAgree.1 i) (by rwa [issuable_din]) polls)

/-- `t` is the core in a raw Poly1305 session, with the authenticator `r`, `sv` having absorbed `m`, no command in
flight and the errors of `s`. -/
structure MacSession (s : State) (r sv : BitVec 128) (m : List Byte) (t : State) : Prop where
  rstN : t.rstN = true
  pending : t.pending = none
  phase : t.phase = if m.length % 16 = 0 then .mac else .macTail
  polyR : t.polyR = r
  polyS : t.polyS = sv
  acc : t.acc = absorb r 0 (chunks 16 m)
  err : t.err = s.err
  errcode : t.errcode = s.errcode

/-- POLY_INIT from acceptance to completion (R103, R150). -/
theorem completed_polyInit (s : State) (len : BitVec 7) : completed (.polyInit len) s =
    { s with polyR := otkR (s.dinBytes 32), polyS := otkS (s.dinBytes 32), acc := 0, tag := tagOf (zeros 16),
             phase := .mac, pending := none, done := true } :=
  rfl

/-- POLY_UPDATE from acceptance to completion (R103, R151). -/
theorem completed_polyUpdate (s : State) (len : BitVec 7) : completed (.polyUpdate len) s =
    { s with acc := absorb s.polyR s.acc (chunks 16 (s.dinBytes len.toNat)),
             phase := if len.toNat % 16 = 0 then s.phase else .macTail, pending := none, done := true } :=
  rfl

/-- POLY_FINAL from acceptance to completion (R103, R152). -/
theorem completed_polyFinal (s : State) (len : BitVec 7) : completed (.polyFinal len) s =
    { s with tag := tagOf (tagBytes s.acc s.polyS), polyR := 0#128, polyS := 0#128, acc := 0, phase := .idle,
             pending := none, done := true } :=
  rfl

/-- The bytes just loaded are the operand of a command of their length (R38). -/
theorem dinBytes_loadedDin (s : State) {B : List Byte} (h : B.length ≤ 64) :
    ({ s with din := loadedDin B s.din } : State).dinBytes B.length = B :=
  slice_loadedDin B s.din h

/-- POLY_INIT on the one-time key just loaded starts a session without a message (R150). -/
theorem completed_polyInit_session {s : State} (hr : s.rstN = true) {otk : List Byte} (hl : otk.length = 32) :
    MacSession s (otkR otk) (otkS otk) [] (completed (.polyInit 32#7) { s with din := loadedDin otk s.din }) := by
  have hdin := dinBytes_loadedDin s (B := otk) (by omega)
  rw [hl] at hdin
  rw [completed_polyInit, hdin]
  exact ⟨hr, rfl, rfl, rfl, rfl, by rw [chunks_nil]; rfl, rfl, rfl⟩

/-- POLY_UPDATE on the part just loaded, the message so far being whole chunks, absorbs it (R144, R151). -/
theorem MacSession.update {s t : State} {r sv : BitVec 128} {m p : List Byte} (h : MacSession s r sv m t)
    (hm : m.length % 16 = 0) (hl : p.length ≤ 64) :
    MacSession s r sv (m ++ p) (completed (.polyUpdate (partLen p)) { t with din := loadedDin p t.din }) := by
  obtain ⟨hr, -, hphase, hR, hS, hacc, herr, hcode⟩ := h
  have hlen : (m ++ p).length % 16 = p.length % 16 := by rw [List.length_append]; omega
  have hmac : t.phase = .mac := hphase.trans (if_pos hm)
  have habsorb : absorb t.polyR t.acc (chunks 16 p) = absorb r 0 (chunks 16 (m ++ p)) := by
    rw [hR, hacc, chunks_append 16 (by decide) m p hm, absorb_append]
  rw [completed_polyUpdate, partLen_toNat p hl, dinBytes_loadedDin t hl]
  exact ⟨hr, rfl, by rw [hlen, hmac], hR, hS, habsorb, herr, hcode⟩

/-- One part of R148's sequence. -/
theorem HostRuns.updatePart {s t : State} {r sv : BitVec 128} {m p : List Byte} (h : MacSession s r sv m t)
    (hm : m.length % 16 = 0) (hl : p.length ≤ 64) (polls : Nat) :
    HostRuns t (accesses (lddin p) ++ hostRun polls (.polyUpdate (partLen p)))
      (completed (.polyUpdate (partLen p)) { t with din := loadedDin p t.din }) [] [] := by
  have hwf : (Instr.polyUpdate (partLen p)).wf = true := decide_eq_true (by rwa [partLen_toNat p hl])
  have hphase : t.phase = .mac := h.phase.trans (if_pos hm)
  exact HostRuns.loadRun h.rstN h.pending hl (issuable_of_keyless rfl hwf (by rw [hphase]; rfl)) polls

theorem chunkParts_cons {p : List Byte} {ps : List (List Byte)} (h : chunkParts (p :: ps)) :
    p.length ≤ 64 ∧ (ps = [] ∨ p.length % 16 = 0 ∧ chunkParts ps) := by
  cases ps with
  | nil => exact ⟨h, .inl rfl⟩
  | cons q qs =>
    obtain ⟨hl, h16, hps⟩ := h
    exact ⟨hl, .inr ⟨h16, hps⟩⟩

/-- R148 from the first part on. -/
theorem HostRuns.updateParts {s t : State} {r sv : BitVec 128} {m : List Byte} (h : MacSession s r sv m t)
    (hm : m.length % 16 = 0) {ps : List (List Byte)} (hps : chunkParts ps) (polls : Nat → Nat) :
    ∃ u, HostRuns t (feed polls .polyUpdate ps) u [] [] ∧ MacSession s r sv (m ++ ps.flatten) u := by
  induction ps generalizing t m polls with
  | nil => exact ⟨t, HostRuns.nil t, by simpa using h⟩
  | cons p ps ih =>
    obtain ⟨hl, hrest⟩ := chunkParts_cons hps
    have hpart := HostRuns.updatePart h hm hl (polls 0)
    have hs := h.update hm hl
    rw [List.flatten_cons, ← List.append_assoc]
    rcases hrest with rfl | ⟨h16, hps⟩
    · exact ⟨_, hpart.append (HostRuns.nil _), by simpa using hs⟩
    · obtain ⟨u, hrun, hu⟩ := ih hs (by rw [List.length_append]; omega) hps fun j => polls (j + 1)
      exact ⟨u, hpart.append hrun, hu⟩

/-- `run POLY_FINAL, 0; rdtag` reads the session's tag (R152). -/
theorem HostRuns.finalTag {s t : State} {r sv : BitVec 128} {m : List Byte} (h : MacSession s r sv m t) (polls : Nat) :
    HostRuns t (hostRun polls (.polyFinal 0#7) ++ accesses rdtag) (completed (.polyFinal 0#7) t) []
      (wordsOf (tagBytes (absorb r 0 (chunks 16 m)) sv)) := by
  have hadm : admitted (.polyFinal 0#7) t.phase = true := by
    rw [h.phase]
    split <;> rfl
  have hrun := HostRuns.run h.rstN h.pending (decodeAndEncodeAgree.1 (.polyFinal 0#7))
    (issuable_of_keyless rfl rfl hadm) polls
  have htag : (completed (.polyFinal 0#7) t).tag = tagOf (tagBytes (absorb r 0 (chunks 16 m)) sv) := by
    rw [completed_polyFinal, h.acc, h.polyS]
  have hread := Runs.rdtag ((completed_rstN _ t).trans h.rstN) (completed_pending _ t) _ (length_tagBytes _ _) htag
  exact hrun.append hread.host

/-- Settles O58: the session absorbs the parts in turn, and its tag is that of their concatenation. -/
theorem partSequenceIsPoly1305 : Obligations.PartSequenceIsPoly1305 := by
  intro s first last polls otk ms hs hotk hms program
  obtain ⟨hr, hphase, hp⟩ := hs
  have hi : issuable (.polyInit 32#7) s = true := issuable_of_keyless rfl rfl (by rw [hphase]; rfl)
  have hinit := HostRuns.loadRun hr hp (B := otk) (by omega) hi first
  obtain ⟨t, hfeed, ht⟩ := HostRuns.updateParts (completed_polyInit_session hr hotk) rfl hms polls
  have hrun := (hinit.append hfeed).append (HostRuns.finalTag ht last)
  obtain ⟨u, hu, -, htag, hport⟩ := hrun.exists_next
  refine ⟨u, ?_, ?_, ?_, ?_, ?_⟩
  · rw [← hu]
    simp only [program, List.append_assoc]
  · rw [tagRead, htag]
    exact bytesOf_wordsOf_aligned _ (by simp)
  · rw [hport, completed_polyFinal]; rfl
  · rw [hport, completed_polyFinal]; exact ht.err
  · rw [hport, completed_polyFinal]; exact ht.errcode

end Sys2Proof.Machine
end

section
/-! The AEAD commands (spec/43_aead.md): padding, what each command's completion leaves, the phase table of R180, and that DOUT
shows no plaintext before a tag has matched. -/

namespace Sys2Proof.Machine

/-! Padding. -/

/-- Settles O53: fewer than 16 zero bytes, and none at a multiple of 16. -/
theorem paddingReachesAMultipleOf16 : Obligations.PaddingReachesAMultipleOf16 := by
  refine fun x => ⟨rfl, length_append_pad16 x, fun h => ?_, ?_⟩
  · rw [pad16, h]
    rfl
  · rw [length_pad16]
    omega

theorem absorbPadded_nil (r : BitVec 128) (acc : Nat) : absorbPadded r acc [] = acc := by
  rw [absorbPadded, chunks_nil]
  rfl

/-- Settles O56: padding the last chunk is chunking the padded string. -/
theorem absorbPaddedIsThePaddedMessage : Obligations.AbsorbPaddedIsThePaddedMessage :=
  ⟨absorbPadded_eq, absorbPadded_nil⟩

/-! The results of the commands. -/

/-- Settles O35: both INITs are `AeadInit`, with a phase of their own. -/
theorem aeadInitResult : Obligations.AeadInitResult := by
  have htag : groupBytes (tagOf (zeros 16)) = zeros 16 := groupBytes_tagOf _ rfl
  have hdout : groupBytes (doutOf []) = zeros 64 := groupBytes_doutOf [] (Nat.zero_le _)
  exact fun s => ⟨fun hp => ⟨_, exec_of_pending hp, rfl, rfl, rfl, htag, hdout, rfl⟩,
    fun hp => ⟨_, exec_of_pending hp, rfl, rfl, rfl, htag, hdout, rfl⟩⟩

/-- The lengths count modulo 2^64 (R35). -/
theorem toNat_add_len (x : BitVec 64) (n : Nat) : (x + BitVec.ofNat 64 n).toNat = (x.toNat + n) % 2 ^ 64 := by
  rw [BitVec.toNat_add, BitVec.toNat_ofNat, Nat.add_mod_mod]

/-- Settles O36: the padded bytes are absorbed chunk by chunk. -/
theorem aeadAadResult : Obligations.AeadAadResult := fun s _ hp _ =>
  ⟨_, exec_of_pending hp, absorbPadded_eq s.polyR s.acc _, toNat_add_len s.aadlen _, (ite_not _ _ _).symm, rfl⟩

/-- Settles O37: DOUT, the authenticator and the counter all follow from the one ciphertext `encrypt` gives. -/
theorem aeadEncResult : Obligations.AeadEncResult := by
  intro s len hp hlen
  refine ⟨_, _, exec_of_pending hp, rfl, groupBytes_doutOf_streamOut s _ hlen, ?_, toNat_add_len s.ctlen _, rfl,
    cwrapAfter_iff s _, rfl, rfl⟩
  show absorbPadded s.polyR s.acc (s.streamOut len.toNat) = _
  rw [absorbPadded_eq, streamOut_eq_encrypt s _ hlen]

/-- Settles O38: TAG holds the tag of the session. -/
theorem aeadTagResult : Obligations.AeadTagResult := by
  intro s hp
  refine ⟨_, exec_of_pending hp, ?_, rfl⟩
  show le (groupBytes (tagOf (tagBytes s.lengthBlock s.polyS))) = _
  rw [groupBytes_tagOf _ (length_tagBytes _ _), le_tagBytes]
  rfl

/-- Settles O39: the ciphertext is absorbed as it stands in DIN. -/
theorem aeadAbsorbResult : Obligations.AeadAbsorbResult := fun s _ hp _ =>
  ⟨_, exec_of_pending hp, absorbPadded_eq s.polyR s.acc _, toNat_add_len s.ctlen _, rfl, rfl⟩

/-- Settles O41: as CHACHA_XOR, the phase apart. -/
theorem aeadDecryptResult : Obligations.AeadDecryptResult := fun s _ hp hlen =>
  ⟨_, exec_of_pending hp, groupBytes_doutOf_streamOut s _ hlen, rfl, cwrapAfter_iff s _, rfl, rfl⟩

/-- The match of R176, RTAGV given bit by bit (R33). -/
theorem tagMatches_iff_written (s : State) : s.tagMatches = true ↔
    groupBytes s.rtag = s.aeadTag ∧ ∀ j : Fin 4, s.rmask.getLsbD j = true := by
  have hmask : s.rtagv = true ↔ ∀ j : Fin 4, s.rmask.getLsbD j = true := by
    rw [State.rtagv, beq_iff_eq]
    exact mask_full_iff s.rmask
  rw [tagMatches_iff, hmask, eq_comm]

theorem effectOf_aeadVerify_match {s : State} (h : s.tagMatches = true) (len : BitVec 7) :
    effectOf (.aeadVerify len) s = noError { s with
      polyR := 0#128, polyS := 0#128, acc := 0, rtag := Vector.replicate 4 0#32, rmask := 0#4, authOk := true,
      counter := 1#32, phase := .openDecrypt } :=
  if_pos h

theorem effectOf_aeadVerify_mismatch {s : State} (h : ¬s.tagMatches = true) (len : BitVec 7) :
    effectOf (.aeadVerify len) s = ({ s with
      polyR := 0#128, polyS := 0#128, acc := 0, rtag := Vector.replicate 4 0#32, rmask := 0#4, authOk := false,
      phase := .idle }, some .auth) :=
  if_neg h

/-- Settles O40: the match decides between the two effects. -/
theorem aeadVerifyResult : Obligations.AeadVerifyResult := by
  intro s hp
  refine ⟨_, s.aeadTag, exec_of_pending hp, rfl, fun h => ?_, fun h => ?_⟩
  · rw [effectOf_aeadVerify_match ((tagMatches_iff_written s).mpr h)]
    rfl
  · rw [effectOf_aeadVerify_mismatch (mt (tagMatches_iff_written s).mp h)]
    rfl

/-! Phases. -/

theorem finish_phase (e : State × Option ErrCode) : (finish e).phase = e.1.phase := by
  obtain ⟨s, _ | code⟩ := e <;> rfl

theorem finish_authOk (e : State × Option ErrCode) : (finish e).authOk = e.1.authOk := by
  obtain ⟨s, _ | code⟩ := e <;> rfl

/-- The phase a completion leaves, command by command (R180). -/
theorem effectOf_phase {s : State} {i : Instr} (hi : issuable i s = true) :
    (effectOf i s).1.phase = nextPhase i (effectOf i s).1.authOk s.phase := by
  obtain ⟨hwf, ha, -⟩ := (issuable_iff i s).mp hi
  rw [admitted_iff] at ha
  cases i with
  | aeadVerify len =>
    by_cases h : s.tagMatches = true
    · rw [effectOf_aeadVerify_match h]
      rfl
    · rw [effectOf_aeadVerify_mismatch h]
      rfl
  | polyInit len =>
    have hp : s.phase = .idle := by simpa [admittedIn] using ha
    rw [hp]
    rfl
  | polyUpdate len =>
    have hp : s.phase = .mac := by simpa [admittedIn] using ha
    simp [effectOf, polyUpdateEffect, noError, nextPhase, hp]
  | aeadAad len =>
    have hp : s.phase = .sealAad ∨ s.phase = .openAad := by simpa [admittedIn] using ha
    rcases hp with hp | hp <;> simp [effectOf, aeadAadEffect, noError, nextPhase, hp]
  | aeadDecrypt len =>
    have hp : s.phase = .openDecrypt := by simpa [admittedIn] using ha
    have hlen : len.toNat ≤ 64 := of_decide_eq_true hwf
    have hshort : len.toNat < 64 ↔ ¬len.toNat = 64 := by omega
    simp only [effectOf, aeadDecryptEffect, noError, nextPhase, hp, hshort, ite_not]
  | _ => rfl

theorem issue_phase (i : Instr) (s : State) : (issue i s).phase = s.phase := by
  rcases issue_cases i s with ⟨-, h⟩ | ⟨-, _, -, h⟩ <;> rw [h] <;> rfl

/-- Settles O44: the table at completion, and presentation changes no phase. -/
theorem phaseTransitionTable : Obligations.PhaseTransitionTable := by
  refine ⟨fun s i hp hi => ⟨_, exec_of_pending hp, ?_⟩, fun s t i hp ht => ?_⟩
  · rw [finish_phase, finish_authOk, effectOf_phase hi]
  · obtain rfl : issue i s = t := by simpa using (exec_of_idle i hp).symm.trans ht
    exact issue_phase i s

/-! No plaintext before the tag has matched. -/

/-- From `s` to `t` decryption is not opened (R176). -/
def OpensNothing (s t : State) : Prop := t.phase = .openDecrypt → s.phase = .openDecrypt

theorem opensNothing_of_phase_eq {s t : State} (h : t.phase = s.phase) : OpensNothing s t := fun ht => h.symm.trans ht

/-- Only a matching verify opens decryption, and it sets AUTH_OK (R176). -/
theorem effectOf_opens {s : State} {i : Instr} (ht : (effectOf i s).1.phase = .openDecrypt)
    (hs : s.phase ≠ .openDecrypt) : ∃ len, i = .aeadVerify len ∧ (effectOf i s).1.authOk = true := by
  cases i with
  | aeadVerify len =>
    by_cases h : s.tagMatches = true
    · exact ⟨len, rfl, by rw [effectOf_aeadVerify_match h]; rfl⟩
    · rw [effectOf_aeadVerify_mismatch h] at ht
      cases ht
  | chachaBlock | chachaXor => exact absurd ht hs
  | polyInit | polyFinal | aeadSealInit | aeadOpenInit | aeadTag | abort | zeroize => cases ht
  | polyUpdate | aeadAad | aeadEnc | aeadAbsorb | aeadDecrypt =>
    simp only [effectOf, polyUpdateEffect, aeadAadEffect, aeadEncEffect, aeadAbsorbEffect, aeadDecryptEffect, noError,
      dataPhase] at ht
    split_ifs at ht <;> exact absurd ht hs

theorem unlessBusy_phase {s : State} {act : State → State} (h : (act s).phase = s.phase) :
    (unlessBusy act s).phase = s.phase := by
  unfold unlessBusy
  split
  · rfl
  · exact h

theorem unlessLocked_phase {s : State} {act : State → State} (h : (act s).phase = s.phase) :
    (unlessLocked act s).phase = s.phase := by
  refine unlessBusy_phase ?_
  split
  · rfl
  · exact h

/-- A write to a register changes the phase only by a reset. -/
theorem writeData_opensNothing (r : Reg) (v : Word) (s : State) : OpensNothing s (writeData r v s) := by
  cases r with
  | ctrl =>
    rw [writeData, writeCtrl]
    split
    · intro ht
      cases ht
    · exact opensNothing_of_phase_eq (unlessBusy_phase rfl)
  | status =>
    rw [writeData, writeStatus_eq]
    exact id
  | counter | key | nonce => exact opensNothing_of_phase_eq (unlessLocked_phase rfl)
  | rtag | din => exact opensNothing_of_phase_eq (unlessBusy_phase rfl)
  | _ => exact id

theorem present_opensNothing {s t : State} {w : Word} (ht : present w s = .next t) : OpensNothing s t := by
  rcases present_cases w s with ⟨-, h⟩ | ⟨-, -, h⟩ | ⟨-, i, -, h, hi⟩
  · cases h.symm.trans ht
    exact id
  · cases h.symm.trans ht
    exact id
  · cases hi.symm.trans (h.symm.trans ht)
    exact opensNothing_of_phase_eq (issue_phase i s)

theorem hostWrite_opensNothing {s t : State} {off : BitVec 9} {width : Nat} {v : Word}
    (ht : hostWrite off width v s = .next t) : OpensNothing s t := by
  rcases hostWrite_cases off width v s with ⟨-, h⟩ | ⟨-, -, h⟩ | ⟨-, -, h⟩ <;> rw [h] at ht
  · cases ht
    exact id
  · exact present_opensNothing (s := answer _ s) ht
  · cases ht
    exact writeData_opensNothing _ v (answer _ s)

/-- Of all inputs only the core's turn, completing a verify that matches, opens decryption. -/
theorem perform_opens {s t : State} {i : Input} (h : perform i s = .next t) (ht : t.phase = .openDecrypt)
    (hs : s.phase ≠ .openDecrypt) : ∃ len, s.pending = some (.aeadVerify len) ∧ t.authOk = true := by
  cases hr : s.rstN with
  | false =>
    rw [perform_held hr] at h
    cases h
    cases i <;> cases ht
  | true =>
    cases i with
    | read off width =>
      cases (perform_read hr off width).symm.trans h
      obtain ⟨_, _, _, _, _, heq⟩ := hostRead_frame off width s
      rw [heq] at ht
      exact absurd ht hs
    | write off width v => exact absurd (hostWrite_opensNothing ((perform_write hr off width v).symm.trans h) ht) hs
    | coreTurn =>
      cases hp : s.pending with
      | none =>
        cases (perform_coreTurn_of_idle hr hp).symm.trans h
        exact absurd ht hs
      | some i =>
        cases (exec_of_pending hp).symm.trans ((perform_coreTurn_of_pending hr hp).symm.trans h)
        rw [finish_phase] at ht
        obtain ⟨len, rfl, hok⟩ := effectOf_opens ht hs
        exact ⟨len, rfl, (finish_authOk _).trans hok⟩
    | rstN level =>
      rw [perform_rstN] at h
      cases h
      split at ht
      · exact absurd ht hs
      · cases ht

/-- Settles O47: the invariant holds DOUT at zero, and no input but the turn that completes a matching verify opens
decryption. -/
theorem noPlaintextBeforeTheTagMatches : Obligations.NoPlaintextBeforeTheTagMatches := by
  refine ⟨fun s j hinv hr hb hu => ?_, fun s t h ht hs => ?_⟩
  · have hzero : regValue (.dout j) s = 0#32 := by simp [regValue, hinv.no_plaintext hu]
    rw [step_facing, perform_hostRd hr (by simp [hb]), hzero]
  · cases hi : s.inputs with
    | nil => exact perform_opens ((step_nil hi).symm.trans h) ht hs
    | cons i rest => exact perform_opens (s := { s with inputs := rest }) ((step_cons hi).symm.trans h) ht hs

end Sys2Proof.Machine
end

section
/-! The AEAD sequences (spec/43_aead.md R181, R182): a command fed in parts, what the core holds after each section of a
session, and the two sequences. A session is followed through `AadTaken`, `PtSealed`, `CtAbsorbed` and `CtDecrypted`, which
give the core after a section's data as an update of the core before it. -/

namespace Sys2Proof.Machine

/-! Data in parts. -/

theorem partsOf_cons {fits : Nat → Prop} {p : List Byte} {ps : List (List Byte)} (h : partsOf fits (p :: ps)) :
    p.length ≤ 64 ∧ (ps = [] ∨ fits p.length ∧ partsOf fits ps) := by
  cases ps with
  | nil => exact ⟨h, .inl rfl⟩
  | cons q qs =>
    obtain ⟨hl, hf, hps⟩ := h
    exact ⟨hl, .inr ⟨hf, hps⟩⟩

/-- Whole blocks are encrypted first, and COUNTER has moved on by their number (R126, R131). -/
theorem encrypt_append (k n : List Byte) (c : Word) (A B : List Byte) (h : A.length % 64 = 0) :
    encrypt k n c (A ++ B) = encrypt k n c A ++ encrypt k n (c + BitVec.ofNat 32 (A.length / 64)) B := by
  induction A using block_induction generalizing c with
  | nil => simp [encrypt_nil]
  | last C h0 hl =>
    have hC : C.length = 64 := by omega
    rw [encrypt_cons k n c C B hC, hC]
  | cons C A hC ih =>
    have hA : A.length % 64 = 0 := by rw [List.length_append] at h; omega
    have hc : (C ++ A).length / 64 = 1 + A.length / 64 := by rw [List.length_append]; omega
    rw [List.append_assoc, encrypt_cons k n c C _ hC, encrypt_cons k n c C A hC, ih _ hA, hc, BitVec.ofNat_add,
      ← BitVec.add_assoc, List.append_assoc]

/-- `encrypt` under the loaded key and nonce, from COUNTER on. -/
def State.encrypts (s : State) (m : List Byte) : List Byte := encrypt (groupBytes s.key) (groupBytes s.nonce) s.counter m

/-- The same for `p`, which comes after the whole blocks `m`. -/
def State.encryptsAfter (s : State) (m p : List Byte) : List Byte :=
  encrypt (groupBytes s.key) (groupBytes s.nonce) (s.counter + BitVec.ofNat 32 (m.length / 64)) p

theorem encrypts_append (s : State) {m : List Byte} (p : List Byte) (hm : m.length % 64 = 0) :
    s.encrypts (m ++ p) = s.encrypts m ++ s.encryptsAfter m p :=
  encrypt_append _ _ _ m p hm

theorem encryptsAfter_nil (s : State) (p : List Byte) : s.encryptsAfter [] p = s.encrypts p := by
  simp [State.encryptsAfter, State.encrypts]

/-- A whole block and what follows it. -/
theorem encryptsAfter_cons (s : State) (m : List Byte) {p : List Byte} (d : List Byte) (hp : p.length = 64) :
    s.encryptsAfter m (p ++ d) = s.encryptsAfter m p ++ s.encryptsAfter (m ++ p) d := by
  have hm : (m ++ p).length / 64 = m.length / 64 + 1 := by rw [List.length_append]; omega
  simp only [State.encryptsAfter, encrypt_cons _ _ _ p d hp, hm, BitVec.ofNat_add, BitVec.add_assoc]

/-- The core after `lddin p` and a command of the length of `p`. -/
def State.fed (t : State) (cmd : BitVec 7 → Instr) (p : List Byte) : State :=
  completed (cmd (partLen p)) { t with din := loadedDin p t.din }

/-- The command `cmd` takes data in parts, each but the last of a length that `fits`, a multiple of `n`. `Taken m` says what
the core is after the data `m`, but for the phase: in the phases `more` it takes another part, and the last part leaves one
of the phases `last`. -/
structure TakesParts (n : Nat) (fits : Nat → Prop) (cmd : BitVec 7 → Instr) (Taken : List Byte → State → Prop)
    (more last : List Phase) : Prop where
  whole : ∀ {l}, fits l → l % n = 0
  sub : more ⊆ last
  idle : ∀ {m t}, Taken m t → t.rstN = true ∧ t.pending = none
  issuable : ∀ {t : State} {p : List Byte}, t.phase ∈ more → p.length ≤ 64 → issuable (cmd (partLen p)) t = true
  takes : ∀ {m t p}, Taken m t → m.length % n = 0 → p.length ≤ 64 → Taken (m ++ p) (t.fed cmd p)
  phase : ∀ {t : State} {p : List Byte}, t.phase ∈ more → p.length ≤ 64 →
    (t.fed cmd p).phase ∈ last ∧ (fits p.length → (t.fed cmd p).phase ∈ more)

section
variable {n : Nat} {fits : Nat → Prop} {cmd : BitVec 7 → Instr} {Taken : List Byte → State → Prop}
  {more last : List Phase}

theorem TakesParts.whole_append (h : TakesParts n fits cmd Taken more last) {m p : List Byte} (hm : m.length % n = 0)
    (hp : fits p.length) : (m ++ p).length % n = 0 := by
  rw [List.length_append, Nat.add_mod, hm, h.whole hp]
  rfl

/-- Data fed in parts is taken as one (R148, R171). -/
theorem HostRuns.feedParts (h : TakesParts n fits cmd Taken more last) {ps : List (List Byte)} (hps : partsOf fits ps)
    {m : List Byte} {t : State} (ht : Taken m t) (hphase : t.phase ∈ more) (hm : m.length % n = 0) (polls : Nat → Nat) :
    ∃ u, HostRuns t (feed polls cmd ps) u [] [] ∧ Taken (m ++ ps.flatten) u ∧ u.phase ∈ last := by
  induction ps generalizing m t polls with
  | nil => exact ⟨t, HostRuns.nil t, by simpa using ht, h.sub hphase⟩
  | cons p ps ih =>
    obtain ⟨hl, hrest⟩ := partsOf_cons hps
    obtain ⟨hr, hp⟩ := h.idle ht
    have hpart := HostRuns.loadRun hr hp hl (h.issuable hphase hl) (polls 0)
    have htaken := h.takes ht hm hl
    obtain ⟨hlast, hmore⟩ := h.phase hphase hl
    rw [List.flatten_cons, ← List.append_assoc]
    rcases hrest with rfl | ⟨hfits, hps⟩
    · exact ⟨t.fed cmd p, hpart.append (HostRuns.nil _), by simpa using htaken, hlast⟩
    · obtain ⟨u, hrun, hu⟩ := ih hps htaken (hmore hfits) (h.whole_append hm hfits) fun j => polls (j + 1)
      exact ⟨u, hpart.append hrun, hu⟩

/-- Data streamed in parts through a command that encrypts each under its own counter value is encrypted as one: what the
`rddout`s yield (R128, R173). -/
theorem HostRuns.streamParts (h : TakesParts 64 (· = 64) cmd Taken more last) {s : State}
    (hout : ∀ {m t p}, Taken m t → m.length % 64 = 0 → p.length ≤ 64 →
      (t.fed cmd p).dout = doutOf (s.encryptsAfter m p))
    {ps : List (List Byte)} (hps : blockParts ps) {m : List Byte} {t : State} (ht : Taken m t) (hphase : t.phase ∈ more)
    (hm : m.length % 64 = 0) (polls : Nat → Nat) :
    ∃ u ds, HostRuns t (feedRead polls cmd ps) u ds [] ∧
      (rddoutResults (ps.map List.length) ds).flatten = s.encryptsAfter m ps.flatten ∧ Taken (m ++ ps.flatten) u ∧
      u.phase ∈ last := by
  induction ps generalizing m t polls with
  | nil => exact ⟨t, [], HostRuns.nil t, (encrypt_nil _ _ _).symm, by simpa using ht, h.sub hphase⟩
  | cons p ps ih =>
    obtain ⟨hl, hrest⟩ := partsOf_cons hps
    obtain ⟨hr, hp⟩ := h.idle ht
    have hlen : (s.encryptsAfter m p).length = p.length := length_encrypt _ _ _ p
    have hpart := HostRuns.readPart (cmd := cmd) (Runs.lddin hr hp p hl) hr hp
      ((issuable_din _ _ _).trans (h.issuable hphase hl)) hl hlen (hout ht hm hl) (polls 0)
    have htaken := h.takes ht hm hl
    obtain ⟨hlast, hmore⟩ := h.phase hphase hl
    have hread : ∀ ns ds, rddoutResults (p.length :: ns) (wordsOf (s.encryptsAfter m p) ++ ds) =
        s.encryptsAfter m p :: rddoutResults ns ds := fun ns ds => by rw [← hlen, rddoutResults_cons]
    rw [List.map_cons, List.flatten_cons, ← List.append_assoc]
    rcases hrest with rfl | ⟨hfits, hps⟩
    · exact ⟨t.fed cmd p, _, hpart.append (HostRuns.nil _), by rw [hread]; simp [rddoutResults],
        by simpa using htaken, hlast⟩
    · obtain ⟨u, ds, hrun, hds, hu⟩ := ih hps htaken (hmore hfits) (h.whole_append hm hfits) fun j => polls (j + 1)
      exact ⟨u, _, hpart.append hrun, by rw [hread, List.flatten_cons, hds, encryptsAfter_cons s m _ hfits], hu⟩

end

/-! The sections of a session. -/

/-- The two kinds of session: the INIT, the phase it enters, and the phase after the associated data (R167, R168, R170). -/
inductive Session : Instr → Phase → Phase → Prop
  | sealing : Session (.aeadSealInit 0#7) .sealAad .sealData
  | opening : Session (.aeadOpenInit 0#7) .openAad .openData

/-- The core `s` after an INIT that enters phase `p`. -/
def State.started (s : State) (p : Phase) : State := { aeadInit p s with pending := none, done := true }

theorem completed_init {i : Instr} {first next : Phase} (h : Session i first next) (s : State) :
    completed i s = s.started first := by
  cases h <;> rfl

/-- `t` is the core `s` after the associated data `m` (R170, R171). -/
def AadTaken (s : State) (m : List Byte) (t : State) : Prop :=
  t = { s with acc := absorbPadded s.polyR s.acc m, aadlen := s.aadlen + BitVec.ofNat 64 m.length, phase := t.phase,
               din := t.din, done := t.done, pending := none }

/-- `t` is the core `s` after the ciphertext `m` of an open (R175). -/
def CtAbsorbed (s : State) (m : List Byte) (t : State) : Prop :=
  t = { s with acc := absorbPadded s.polyR s.acc m, ctlen := s.ctlen + BitVec.ofNat 64 m.length, phase := t.phase,
               din := t.din, done := t.done, pending := none }

/-- COUNTER after `m` bytes in blocks, the last of them perhaps short (R131). -/
def State.counterPast (s : State) (m : List Byte) : Word := s.counter + BitVec.ofNat 32 ((m.length + 63) / 64)

theorem counterPast_whole (s : State) {m : List Byte} (hm : m.length % 64 = 0) :
    s.counterPast m = s.counter + BitVec.ofNat 32 (m.length / 64) := by
  rw [State.counterPast, show (m.length + 63) / 64 = m.length / 64 by omega]

/-- The output of a streaming command for the part `p`, `m` having gone before (R133). -/
theorem streamOut_part {s t : State} {m p : List Byte} (hk : t.key = s.key) (hn : t.nonce = s.nonce)
    (hc : t.counter = s.counterPast m) (hm : m.length % 64 = 0) (hl : p.length ≤ 64) :
    ({ t with din := loadedDin p t.din } : State).streamOut p.length = s.encryptsAfter m p := by
  rw [streamOut_loadedDin t p hl, hk, hn, hc, counterPast_whole s hm, State.encryptsAfter]

/-- A part steps COUNTER unless it is empty (R131). -/
theorem counterAfter_part {s t : State} {m : List Byte} (hc : t.counter = s.counterPast m) (hm : m.length % 64 = 0)
    {p : List Byte} (hl : p.length ≤ 64) (v : Vector Word 16) :
    ({ t with din := v } : State).counterAfter p.length = s.counterPast (m ++ p) := by
  show (if p.length = 0 then t.counter else t.counter + 1#32) = _
  rw [hc, counterPast_whole s hm, State.counterPast, List.length_append]
  split
  · next h0 => rw [h0, show (m.length + 0 + 63) / 64 = m.length / 64 by omega]
  · next h0 => rw [show (m.length + p.length + 63) / 64 = m.length / 64 + 1 by omega, BitVec.ofNat_add, BitVec.add_assoc]

/-- `t` is the core `s` after the plaintext `m` of a seal (R172, R173). -/
def PtSealed (s : State) (m : List Byte) (t : State) : Prop :=
  t = { s with acc := absorbPadded s.polyR s.acc (s.encrypts m), ctlen := s.ctlen + BitVec.ofNat 64 m.length,
               counter := s.counterPast m, cwrap := t.cwrap, dout := t.dout, phase := t.phase, din := t.din,
               done := t.done, pending := none }

/-- `t` is the core `s` after the ciphertext `m` of the decrypt pass (R178, R179). -/
def CtDecrypted (s : State) (m : List Byte) (t : State) : Prop :=
  t = { s with counter := s.counterPast m, cwrap := t.cwrap, dout := t.dout, phase := t.phase, din := t.din,
               done := t.done, pending := none }

theorem AadTaken.nil {s : State} (hp : s.pending = none) : AadTaken s [] s := by
  cases s
  cases hp
  simp [AadTaken, absorbPadded_nil]

theorem CtAbsorbed.nil {s : State} (hp : s.pending = none) : CtAbsorbed s [] s := by
  cases s
  cases hp
  simp [CtAbsorbed, absorbPadded_nil]

theorem PtSealed.nil {s : State} (hp : s.pending = none) : PtSealed s [] s := by
  cases s
  cases hp
  simp [PtSealed, absorbPadded_nil, State.encrypts, encrypt_nil, State.counterPast]

theorem CtDecrypted.nil {s : State} (hp : s.pending = none) : CtDecrypted s [] s := by
  cases s
  cases hp
  simp [CtDecrypted, State.counterPast]

/-- AEAD_AAD from acceptance to completion (R103, R170). -/
theorem completed_aeadAad (s : State) (len : BitVec 7) : completed (.aeadAad len) s =
    { s with acc := absorbPadded s.polyR s.acc (s.dinBytes len.toNat), aadlen := s.aadlen + BitVec.ofNat 64 len.toNat,
             phase := if len.toNat % 16 = 0 then s.phase else if s.phase = .sealAad then .sealData else .openData,
             pending := none, done := true } :=
  rfl

/-- AEAD_ABSORB from acceptance to completion (R103, R175). -/
theorem completed_aeadAbsorb (s : State) (len : BitVec 7) : completed (.aeadAbsorb len) s =
    { s with acc := absorbPadded s.polyR s.acc (s.dinBytes len.toNat), ctlen := s.ctlen + BitVec.ofNat 64 len.toNat,
             phase := dataPhase .openData .openTail len.toNat, pending := none, done := true } :=
  rfl

/-- AEAD_ENC from acceptance to completion (R103, R172). -/
theorem completed_aeadEnc (s : State) (len : BitVec 7) : completed (.aeadEnc len) s =
    { s with dout := doutOf (s.streamOut len.toNat), counter := s.counterAfter len.toNat,
             cwrap := s.cwrapAfter len.toNat, acc := absorbPadded s.polyR s.acc (s.streamOut len.toNat),
             ctlen := s.ctlen + BitVec.ofNat 64 len.toNat, phase := dataPhase .sealData .sealTail len.toNat,
             pending := none, done := true } :=
  rfl

/-- AEAD_DECRYPT from acceptance to completion (R103, R178). -/
theorem completed_aeadDecrypt (s : State) (len : BitVec 7) : completed (.aeadDecrypt len) s =
    { s with dout := doutOf (s.streamOut len.toNat), counter := s.counterAfter len.toNat,
             cwrap := s.cwrapAfter len.toNat, phase := if len.toNat < 64 then .idle else s.phase,
             pending := none, done := true } :=
  rfl

/-- The lengths of two parts count as the length of both, modulo 2^64 (R35). -/
theorem add_len_append (x : BitVec 64) (m p : List Byte) :
    x + BitVec.ofNat 64 m.length + BitVec.ofNat 64 p.length = x + BitVec.ofNat 64 (m ++ p).length := by
  rw [BitVec.add_assoc, ← BitVec.ofNat_add, ← List.length_append]

/-- A data command passes its checks by its phase: a part is at most 64 bytes (R85, R102). -/
theorem issuable_part {i : Instr} {t : State} {p : List Byte} (hk : needsKeyNonce i = false)
    (hwf : i.wf = lenIsData (partLen p)) (ha : t.phase ∈ admittedIn i) (hl : p.length ≤ 64) : issuable i t = true :=
  issuable_of_keyless hk (hwf.trans (decide_eq_true (by rwa [partLen_toNat p hl]))) ((admitted_iff i t.phase).mpr ha)

theorem mod_of_eq {l : Nat} (h : l = 64) : l % 64 = 0 := by
  rw [h]

section
variable {s : State} (hr : s.rstN = true)
include hr

theorem takesParts_aeadAad {i : Instr} {first next : Phase} (hi : Session i first next) :
    TakesParts 16 (· % 16 = 0) .aeadAad (AadTaken s) [first] [first, next] where
  whole h := h
  sub := by simp
  idle ht := ⟨(congrArg State.rstN ht).trans hr, congrArg State.pending ht⟩
  issuable ht hl := by
    refine issuable_part rfl rfl ?_ hl
    cases hi <;> simp_all [admittedIn]
  takes {m t p} ht hm hl := by
    have hacc : absorbPadded t.polyR t.acc p = absorbPadded s.polyR s.acc (m ++ p) := by
      rw [ht, absorbPadded_append _ _ _ _ hm]
    have hlen : t.aadlen + BitVec.ofNat 64 p.length = s.aadlen + BitVec.ofNat 64 (m ++ p).length := by
      rw [ht, add_len_append]
    rw [AadTaken, State.fed, completed_aeadAad, partLen_toNat p hl, dinBytes_loadedDin t hl]
    simp only [hacc, hlen]
    rw [ht]
  phase {t p} ht hl := by
    have ht' : t.phase = first := List.mem_singleton.mp ht
    rw [State.fed, completed_aeadAad, partLen_toNat p hl]
    cases hi <;> by_cases h : p.length % 16 = 0 <;> simp [h, ht']

theorem takesParts_aeadAbsorb :
    TakesParts 64 (· = 64) .aeadAbsorb (CtAbsorbed s) [.openAad, .openData] [.openAad, .openData, .openTail] where
  whole := mod_of_eq
  sub := by simp
  idle ht := ⟨(congrArg State.rstN ht).trans hr, congrArg State.pending ht⟩
  issuable ht hl := issuable_part rfl rfl ht hl
  takes {m t p} ht hm hl := by
    have hacc : absorbPadded t.polyR t.acc p = absorbPadded s.polyR s.acc (m ++ p) := by
      rw [ht, absorbPadded_append _ _ _ _ (by omega)]
    have hlen : t.ctlen + BitVec.ofNat 64 p.length = s.ctlen + BitVec.ofNat 64 (m ++ p).length := by
      rw [ht, add_len_append]
    rw [CtAbsorbed, State.fed, completed_aeadAbsorb, partLen_toNat p hl, dinBytes_loadedDin t hl]
    simp only [hacc, hlen]
    rw [ht]
  phase {t p} _ hl := by
    rw [State.fed, completed_aeadAbsorb, partLen_toNat p hl, dataPhase]
    by_cases h : p.length = 64 <;> simp [h]

theorem takesParts_aeadEnc :
    TakesParts 64 (· = 64) .aeadEnc (PtSealed s) [.sealAad, .sealData] [.sealAad, .sealData, .sealTail] where
  whole := mod_of_eq
  sub := by simp
  idle ht := ⟨(congrArg State.rstN ht).trans hr, congrArg State.pending ht⟩
  issuable ht hl := issuable_part rfl rfl ht hl
  takes {m t p} ht hm hl := by
    have hout := streamOut_part (s := s) (t := t) (by rw [ht]) (by rw [ht]) (by rw [ht]) hm hl
    have hcounter := counterAfter_part (s := s) (congrArg State.counter ht) hm hl (loadedDin p t.din)
    have hacc : absorbPadded t.polyR t.acc (s.encryptsAfter m p) = absorbPadded s.polyR s.acc (s.encrypts (m ++ p)) := by
      rw [ht, encrypts_append s p hm, absorbPadded_append _ _ _ _ (by rw [State.encrypts, length_encrypt]; omega)]
    have hlen : t.ctlen + BitVec.ofNat 64 p.length = s.ctlen + BitVec.ofNat 64 (m ++ p).length := by
      rw [ht, add_len_append]
    rw [PtSealed, State.fed, completed_aeadEnc, partLen_toNat p hl, hout]
    simp only [hacc, hlen, hcounter]
    rw [ht]
  phase {t p} _ hl := by
    rw [State.fed, completed_aeadEnc, partLen_toNat p hl, dataPhase]
    by_cases h : p.length = 64 <;> simp [h]

theorem takesParts_aeadDecrypt :
    TakesParts 64 (· = 64) .aeadDecrypt (CtDecrypted s) [.openDecrypt] [.openDecrypt, .idle] where
  whole := mod_of_eq
  sub := by simp
  idle ht := ⟨(congrArg State.rstN ht).trans hr, congrArg State.pending ht⟩
  issuable ht hl := issuable_part rfl rfl ht hl
  takes {m t p} ht hm hl := by
    have hcounter := counterAfter_part (s := s) (congrArg State.counter ht) hm hl (loadedDin p t.din)
    rw [CtDecrypted, State.fed, completed_aeadDecrypt, partLen_toNat p hl]
    simp only [hcounter]
    rw [ht]
  phase {t p} ht hl := by
    rw [State.fed, completed_aeadDecrypt, partLen_toNat p hl]
    have ht' : t.phase = .openDecrypt := List.mem_singleton.mp ht
    refine ⟨?_, fun h64 => ?_⟩
    · by_cases h : p.length < 64 <;> simp [h, ht']
    · simp [h64, ht']

end

/-! The two sequences. -/

/-- DOUT after a part of the plaintext (R172), and after one of the decrypt pass (R178). -/
theorem fed_aeadEnc_dout {s t : State} {m p : List Byte} (ht : PtSealed s m t) (hm : m.length % 64 = 0)
    (hl : p.length ≤ 64) : (t.fed .aeadEnc p).dout = doutOf (s.encryptsAfter m p) := by
  rw [State.fed, completed_aeadEnc, partLen_toNat p hl,
    streamOut_part (s := s) (t := t) (by rw [ht]) (by rw [ht]) (by rw [ht]) hm hl]

theorem fed_aeadDecrypt_dout {s t : State} {m p : List Byte} (ht : CtDecrypted s m t) (hm : m.length % 64 = 0)
    (hl : p.length ≤ 64) : (t.fed .aeadDecrypt p).dout = doutOf (s.encryptsAfter m p) := by
  rw [State.fed, completed_aeadDecrypt, partLen_toNat p hl,
    streamOut_part (s := s) (t := t) (by rw [ht]) (by rw [ht]) (by rw [ht]) hm hl]

/-- An INIT and the associated data (R171). -/
theorem HostRuns.startSession {s : State} (hs : s.atRest) (hk : s.keyed) {i : Instr} {first next : Phase}
    (hi : Session i first next) {as : List (List Byte)} (has : chunkParts as) (polls : Nat) (pollsA : Nat → Nat) :
    ∃ t, HostRuns s (hostRun polls i ++ feed pollsA .aeadAad as) t [] [] ∧
      AadTaken (s.started first) as.flatten t ∧ t.phase ∈ [first, next] := by
  obtain ⟨hr, hphase, hp⟩ := hs
  have hissue : issuable i s = true :=
    (issuable_iff i s).mpr (by cases hi <;> exact ⟨rfl, by rw [hphase]; rfl, fun _ => hk⟩)
  have hinit := HostRuns.run hr hp (decodeAndEncodeAgree.1 i) hissue polls
  rw [completed_init hi] at hinit
  obtain ⟨t, hfeed, ht⟩ := HostRuns.feedParts (takesParts_aeadAad (s := s.started first) hr hi) has (AadTaken.nil rfl)
    (List.mem_singleton.mpr rfl) rfl pollsA
  exact ⟨t, hinit.append hfeed, ht⟩

/-- The tag of a session that absorbed and counted `aad` and `ct` is that of the MAC input (R163, R174, R176). -/
theorem aeadTag_eq_poly1305 {t : State} {otk aad ct : List Byte} (hR : t.polyR = otkR otk) (hS : t.polyS = otkS otk)
    (hacc : t.acc = absorbPadded t.polyR (absorbPadded t.polyR 0 aad) ct) (haad : t.aadlen = BitVec.ofNat 64 aad.length)
    (hct : t.ctlen = BitVec.ofNat 64 ct.length) : t.aeadTag = poly1305 otk (macInput aad ct) := by
  rw [State.aeadTag, State.lengthBlock, lengthBytes_eq t aad ct haad hct, poly1305, macInput_assoc,
    absorb_sections _ _ _ _ (by simp), hacc, hR, hS]

/-- AEAD_TAG from acceptance to completion (R103, R174). -/
theorem completed_aeadTag (s : State) (len : BitVec 7) : completed (.aeadTag len) s =
    { s with tag := tagOf s.aeadTag, polyR := 0#128, polyS := 0#128, acc := 0, phase := .idle, pending := none,
             done := true } :=
  rfl

/-- `run AEAD_TAG, 0; rdtag` reads the session's tag (R174). -/
theorem HostRuns.sealTag {t : State} (hr : t.rstN = true) (hp : t.pending = none)
    (hphase : t.phase ∈ [.sealAad, .sealData, .sealTail]) (polls : Nat) :
    HostRuns t (hostRun polls (.aeadTag 0#7) ++ accesses rdtag) (completed (.aeadTag 0#7) t) [] (wordsOf t.aeadTag) := by
  have hrun := HostRuns.run hr hp (decodeAndEncodeAgree.1 (.aeadTag 0#7))
    (issuable_of_keyless rfl rfl ((admitted_iff _ _).mpr hphase)) polls
  have htag : (completed (.aeadTag 0#7) t).tag = tagOf t.aeadTag := by rw [completed_aeadTag]
  have hread := Runs.rdtag ((completed_rstN _ t).trans hr) (completed_pending _ t) _ (length_tagBytes _ _) htag
  exact hrun.append hread.host

/-- What a seal's session holds is `seal` of what it took (R163). -/
theorem encrypts_aeadTag_eq_aeadSeal {s t u : State} {aad p : List Byte} {q : Phase} (ht : AadTaken (s.started q) aad t)
    (hu : PtSealed t p u) :
    (t.encrypts p, u.aeadTag) = aeadSeal (groupBytes s.key) (groupBytes s.nonce) p aad := by
  have hct : t.encrypts p = encrypt (groupBytes s.key) (groupBytes s.nonce) 1#32 p := by rw [ht]; rfl
  have hlen : (t.encrypts p).length = p.length := length_encrypt _ _ _ p
  have htag := aeadTag_eq_poly1305 (t := u) (otk := deriveOneTimeKey (groupBytes s.key) (groupBytes s.nonce))
    (aad := aad) (ct := t.encrypts p) (by rw [hu, ht]; rfl) (by rw [hu, ht]; rfl) (by rw [hu, ht]; rfl)
    (by rw [hu, ht]; exact BitVec.zero_add _) (by rw [hlen, hu, ht]; exact BitVec.zero_add _)
  rw [htag, hct]
  rfl

/-- Settles O59: the associated data and the plaintext go in part by part, and the tag is that of both. -/
theorem sealSequenceIsSeal : Obligations.SealSequenceIsSeal := by
  intro s first last pollsA pollsP as ps hs hk has hps program
  obtain ⟨t, hrunA, ht, hphaseA⟩ := HostRuns.startSession hs hk .sealing has first pollsA
  have htr : t.rstN = true := by rw [ht]; exact hs.1
  obtain ⟨u, ds, hrunP, hds, hu, hphaseP⟩ := HostRuns.streamParts (takesParts_aeadEnc htr) fed_aeadEnc_dout hps
    (PtSealed.nil (by rw [ht])) hphaseA rfl pollsP
  have hrunT := HostRuns.sealTag (by rw [hu]; exact htr) (by rw [hu]) hphaseP last
  obtain ⟨v, hv, hdout, htag, hport⟩ := ((hrunA.append hrunP).append hrunT).exists_next
  refine ⟨v, ?_, ?_, ?_, ?_, ?_⟩
  · rw [← hv]
    simp only [program, List.append_assoc]
  · rw [← encrypts_aeadTag_eq_aeadSeal (p := ps.flatten) ht hu, doutRead, tagRead, hdout, htag, List.nil_append,
      List.append_nil, hds, encryptsAfter_nil]
    exact congrArg _ (bytesOf_wordsOf_aligned _ (by rw [State.aeadTag, length_tagBytes]))
  · rw [hport, completed_aeadTag]; rfl
  · rw [hport, completed_aeadTag, hu, ht]; rfl
  · rw [hport, completed_aeadTag, hu, ht]; rfl

/-- AEAD_VERIFY from acceptance to completion (R103, R176): the tags agree, or they do not. -/
theorem completed_aeadVerify_match {s : State} (h : s.tagMatches = true) (len : BitVec 7) :
    completed (.aeadVerify len) s =
      { s with polyR := 0#128, polyS := 0#128, acc := 0, rtag := Vector.replicate 4 0#32, rmask := 0#4, authOk := true,
               counter := 1#32, phase := .openDecrypt, pending := none, done := true } := by
  rw [completed, effectOf_aeadVerify_match (s := accept _ s) h]
  rfl

theorem completed_aeadVerify_mismatch {s : State} (h : ¬s.tagMatches = true) (len : BitVec 7) :
    completed (.aeadVerify len) s =
      { s with polyR := 0#128, polyS := 0#128, acc := 0, rtag := Vector.replicate 4 0#32, rmask := 0#4, authOk := false,
               phase := .idle, pending := none, err := true, errcode := .auth } := by
  rw [completed, effectOf_aeadVerify_mismatch (s := accept _ s) h]
  rfl

/-- The sealed text is cut where its tag begins (R164). -/
theorem aeadOpen_append (k n ct tag aad : List Byte) (h : tag.length = 16) : aeadOpen k n (ct ++ tag) aad =
    if poly1305 (deriveOneTimeKey k n) (macInput aad ct) = tag then some (encrypt k n 1#32 ct) else none := by
  have hlong : ¬(ct ++ tag).length < 16 := by rw [List.length_append]; omega
  have hcut : (ct ++ tag).length - 16 = ct.length := by rw [List.length_append]; omega
  simp only [aeadOpen, if_neg hlong, hcut, List.take_left, List.drop_left]

/-- The core `s` after `ldrtag tag`. -/
def State.withRtag (s : State) (tag : List Byte) : State :=
  { s with rtag := groupOfBytes 4 tag, rmask := BitVec.allOnes 4 }

/-- An open's verify matches exactly when the received tag is that of what the session took (R164, R176). -/
theorem tagMatches_iff_poly1305 {s t u : State} {tag aad ct : List Byte} (hl : tag.length = 16)
    (ht : AadTaken ((s.withRtag tag).started .openAad) aad t) (hu : CtAbsorbed t ct u) : u.tagMatches = true ↔
      poly1305 (deriveOneTimeKey (groupBytes s.key) (groupBytes s.nonce)) (macInput aad ct) = tag := by
  have htag := aeadTag_eq_poly1305 (t := u) (otk := deriveOneTimeKey (groupBytes s.key) (groupBytes s.nonce))
    (aad := aad) (ct := ct) (by rw [hu, ht]; rfl) (by rw [hu, ht]; rfl) (by rw [hu, ht]; rfl)
    (by rw [hu, ht]; exact BitVec.zero_add _) (by rw [hu, ht]; exact BitVec.zero_add _)
  have hrtag : groupBytes u.rtag = tag := by
    rw [hu, ht]
    exact groupBytes_groupOfBytes 4 tag hl
  have hmask : u.rtagv = true := by rw [hu, ht]; rfl
  rw [tagMatches_iff, htag, hrtag]
  exact and_iff_left hmask

/-- The decrypt pass (R179, R182). -/
theorem HostRuns.decryptPass {t : State} (hr : t.rstN = true) (hp : t.pending = none) (hphase : t.phase = .openDecrypt)
    {cs : List (List Byte)} (hcs : blockParts cs) (polls : Nat → Nat) :
    ∃ u, runHost (feedRead polls .aeadDecrypt cs) t = .next u ∧ doutRead cs t u = t.encrypts cs.flatten ∧
      u.err = t.err ∧ u.errcode = t.errcode := by
  obtain ⟨v, ds, hrun, hds, hv, -⟩ := HostRuns.streamParts (takesParts_aeadDecrypt hr) fed_aeadDecrypt_dout hcs
    (CtDecrypted.nil hp) (List.mem_singleton.mpr hphase) rfl polls
  obtain ⟨u, hu, hdout, -, hport⟩ := hrun.exists_next
  refine ⟨u, hu, ?_, ?_, ?_⟩
  · rw [doutRead, hdout, hds, encryptsAfter_nil]
  · rw [hport, hv]; rfl
  · rw [hport, hv]; rfl

/-- Settles O60: the verify decides as `open` does, DOUT being untouched till then; a match leaves COUNTER at 1 for the
decrypt pass. -/
theorem openSequenceIsOpen : Obligations.OpenSequenceIsOpen := by
  intro s first last pollsA pollsC pollsD as cs tag hs hk has hcs htag program
  obtain ⟨hr, hphase, hp⟩ := hs
  have hload := (Runs.ldrtag hr hp tag).host
  obtain ⟨t, hrunA, ht, hphaseA⟩ :=
    HostRuns.startSession (s := s.withRtag tag) ⟨hr, hphase, hp⟩ hk .opening has first pollsA
  have htr : t.rstN = true := by rw [ht]; exact hr
  obtain ⟨u, hrunC, hu, hphaseC⟩ := HostRuns.feedParts (takesParts_aeadAbsorb htr) hcs (CtAbsorbed.nil (by rw [ht]))
    hphaseA rfl pollsC
  rw [List.nil_append] at hu
  have hur : u.rstN = true := by rw [hu]; exact htr
  have hrunV := HostRuns.run hur (by rw [hu]) (decodeAndEncodeAgree.1 (.aeadVerify 0#7))
    (issuable_of_keyless rfl rfl ((admitted_iff _ _).mpr hphaseC)) last
  obtain ⟨v, hv, -, -, hport⟩ := ((hload.append hrunA).append (hrunC.append hrunV)).exists_next
  have hmatch := tagMatches_iff_poly1305 htag ht hu
  have hdout : groupBytes u.dout = zeros 64 := by
    rw [hu, ht]
    exact groupBytes_doutOf [] (Nat.zero_le _)
  have herr : u.err = s.err ∧ u.errcode = s.errcode := by rw [hu, ht]; exact ⟨rfl, rfl⟩
  have hprogram : runHost program s = .next v := by
    rw [← hv]
    simp only [program, List.append_assoc]
  refine ⟨v, hprogram, ?_⟩
  rw [aeadOpen_append _ _ _ _ _ htag]
  by_cases h : u.tagMatches = true
  · rw [completed_aeadVerify_match h] at hport
    rw [if_pos (hmatch.mp h)]
    have hplain : v.encrypts cs.flatten = encrypt (groupBytes s.key) (groupBytes s.nonce) 1#32 cs.flatten := by
      rw [hport]
      show encrypt (groupBytes u.key) (groupBytes u.nonce) 1#32 _ = _
      rw [hu, ht]
      rfl
    have hverr : v.err = s.err ∧ v.errcode = s.errcode := by rw [hport]; exact herr
    obtain ⟨w, hw, hread, hwerr, hwcode⟩ := HostRuns.decryptPass (t := v) (by rw [hport]; exact hur)
      (by rw [hport]; rfl) (by rw [hport]; rfl) hcs pollsD
    exact ⟨by rw [hport]; exact hdout, hverr.1, hverr.2, by rw [hport]; rfl, by rw [hport]; rfl, by rw [hport]; rfl,
      w, hw, hread.trans hplain, hwerr.trans hverr.1, hwcode.trans hverr.2⟩
  · rw [completed_aeadVerify_mismatch h] at hport
    rw [if_neg (mt hmatch.mpr h), hport]
    exact ⟨hdout, rfl, rfl, rfl, rfl⟩

end Sys2Proof.Machine
end

section
/-! The session control commands (spec/44_session_control.md): what ABORT and ZEROIZE leave. -/

namespace Sys2Proof.Machine

/-- Settles O42: the completion of ABORT's effect, which raises no error. -/
theorem abortResult : Obligations.AbortResult := fun _ hp => exec_of_pending hp

/-- ZEROIZE is a soft reset of all but CTRL and the status fields that it keeps (R191, R231). -/
theorem zeroizeEffect_eq_resetCore (s : State) :
    zeroizeEffect s = noError { resetCore s with
      ie := s.ie, eie := s.eie, done := s.done, err := s.err, errcode := s.errcode, cwrap := s.cwrap,
      pending := s.pending } :=
  rfl

/-- Settles O43: the completion ends the command, as a reset does, and sets DONE. -/
theorem zeroizeResult : Obligations.ZeroizeResult := by
  intro s hp
  rw [exec_of_pending hp, effectOf, zeroizeEffect_eq_resetCore]
  rfl

end Sys2Proof.Machine
end

section
/-! Errors and the interrupt (spec/60_exceptions.md): what an AEAD phase locks (R203), and the level on `irq` (R210). -/

namespace Sys2Proof.Machine

/-- `wr REG, v` to a register that is not CMD, as the next step. -/
theorem step_hostWr {s : State} {r : Reg} (hr : s.rstN = true) (hc : r ≠ .cmd) (v : Word) :
    step (s.facing (hostWr r v)) = .next (writeData r v (s.wrote r)) := perform_hostWr hr hc v

theorem unlessBusy_of_idle {s : State} (hb : s.busy = false) (act : State → State) : unlessBusy act s = act s :=
  if_neg (Bool.eq_false_iff.mp hb)

/-! The lock. -/

/-- The phases that lock nothing (R31, R203). -/
theorem isAead_eq_false_iff (p : Phase) : p.isAead = false ↔ p = .idle ∨ p = .mac ∨ p = .macTail := by
  cases p <;> decide

theorem unlessLocked_of_aead {s : State} (hb : s.busy = false) (ha : s.phase.isAead = true) (act : State → State) :
    unlessLocked act s = raiseError .locked s :=
  (unlessBusy_of_idle hb _).trans (if_pos ha)

theorem unlessLocked_of_not_aead {s : State} (hb : s.busy = false) (ha : s.phase.isAead = false) (act : State → State) :
    unlessLocked act s = act s :=
  (unlessBusy_of_idle hb _).trans (if_neg (Bool.eq_false_iff.mp ha))

/-- Settles O20: COUNTER, KEYj and NONCEj are the registers written through `unlessLocked`. -/
theorem aeadPhaseLocksKeyNonceCounter : Obligations.AeadPhaseLocksKeyNonceCounter := by
  refine ⟨fun s r v hr hb ha hreg => ?_, fun s v j k hr hb hp => ?_⟩
  · have hlock := unlessLocked_of_aead (s := s.wrote r) hb ha
    rcases hreg with rfl | ⟨j, rfl⟩ | ⟨j, rfl⟩ <;> rw [step_hostWr hr (by simp), writeData, hlock] <;> rfl
  · have hstore (r : Reg) := unlessLocked_of_not_aead (s := s.wrote r) hb ((isAead_eq_false_iff _).mpr hp)
    refine ⟨?_, ?_, ?_⟩ <;> rw [step_hostWr hr (by simp), writeData, hstore] <;> rfl

/-! The interrupt. -/

theorem irq_iff (s : State) : s.irq = true ↔ (s.ie = true ∧ s.done = true) ∨ (s.eie = true ∧ s.err = true) := by
  simp [State.irq]

/-- A write to CTRL that does not reset, with no command in flight (R22). -/
theorem writeCtrl_of_idle {s : State} (hb : s.busy = false) {v : Word} (hv : v.getLsbD 31 = false) :
    writeCtrl v s = { s with ie := v.getLsbD 0, eie := v.getLsbD 1 } :=
  (if_neg (Bool.eq_false_iff.mp hv)).trans (unlessBusy_of_idle hb _)

/-- Settles O23: `irq` is read off what the write leaves in IE, EIE, DONE and ERR. -/
theorem interruptIsALevel : Obligations.InterruptIsALevel := by
  refine ⟨irq_iff, rfl, fun s v hr => ⟨_, step_hostWr hr (by simp) v, ?_⟩, fun s v hr hb hv => ?_⟩
  · rw [irq_iff, writeData, writeStatus_eq]
    cases v.getLsbD 1 <;> cases v.getLsbD 2 <;> simp [State.wrote]
  · have hctrl := writeCtrl_of_idle (s := s.wrote .ctrl) hb hv
    exact ⟨_, (step_hostWr hr (by simp) v).trans (congrArg _ hctrl), rfl, irq_iff _⟩

end Sys2Proof.Machine
end

section
/-! Reset and hazards (spec/70_reset_and_hazards.md): what the soft reset, the hardware reset and the time while it lasts
leave (R230 to R232), and the values a host then reads. -/

namespace Sys2Proof.Machine

/-! The resets as steps. -/

/-- With `rst_n` high a reset leaves the reset state, but for what is not the core's (R231). -/
theorem resetCore_of_rstN_high {s : State} (hr : s.rstN = true) :
    resetCore s = { State.reset with inputs := s.inputs, transfers := s.transfers, draws := s.draws } := by
  rw [resetCore, hr]
  rfl

/-- A write to CTRL with bit 31 set is a reset, whatever the other bits and BUSY (R231). -/
theorem writeCtrl_of_srst {v : Word} (hv : v.getLsbD 31 = true) (s : State) : writeCtrl v s = resetCore s := if_pos hv

/-- The soft reset as a step (R231). -/
theorem step_softReset {s : State} {v : Word} (hr : s.rstN = true) (hv : v.getLsbD 31 = true) :
    step (s.facing (hostWr .ctrl v)) = .next (resetCore (s.wrote .ctrl)) :=
  (step_hostWr hr (by decide) v).trans (congrArg _ (writeCtrl_of_srst hv _))

/-- With `rst_n` high and no command in flight the core's turn is a wait (R233). -/
theorem step_coreTurn_of_idle {s : State} (hr : s.rstN = true) (hp : s.pending = none) :
    step (s.facing .coreTurn) = .next s :=
  (step_facing s .coreTurn).trans (perform_coreTurn_of_idle hr hp)

/-- While `rst_n` is low, a core in its reset state stays as it is under every input but a level of `rst_n` (R230). -/
theorem step_held {s : State} {i : Input} (hr : s.rstN = false) (hs : resetCore s = s) (hi : ∀ level, i ≠ .rstN level) :
    step (s.facing i) = .next s := by
  rw [step_facing, perform_held hr]
  cases i with
  | rstN level => exact absurd rfl (hi level)
  | _ => exact congrArg _ hs

/-- The rising edge of `rst_n` changes the level alone in a core that is in its reset state (R230). -/
theorem step_rstN_rise {s : State} (hr : s.rstN = false) (hs : resetCore s = s) :
    step (s.facing (.rstN true)) = .next { s with rstN := true } := by
  rw [step_facing, perform_rstN_rise hr, hs]

/-! What they leave. -/

/-- Settles O24: SRST is looked at before BUSY. -/
theorem softResetAtAnyTime : Obligations.SoftResetAtAnyTime := by
  intro s v hr hv
  rw [step_softReset hr hv, resetCore_of_rstN_high (s := s.wrote .ctrl) hr]
  rfl

/-- Settles O25: PENDING is `none` after either reset, so the core's turn is a wait. -/
theorem resetDiscardsThePendingCommand : Obligations.ResetDiscardsThePendingCommand := by
  intro s v hr _ hv
  refine ⟨⟨_, step_softReset hr hv, resetCore_of_rstN_high hr, rfl, rfl, step_coreTurn_of_idle hr rfl⟩,
    ⟨_, perform_rstN_low s, rfl, rfl, rfl, _, step_rstN_rise rfl rfl, rfl, rfl, rfl, step_coreTurn_of_idle rfl rfl⟩⟩

/-- Settles O26: the state that a low `rst_n` leaves is one that `resetCore` keeps. -/
theorem hardwareResetHoldsTheCore : Obligations.HardwareResetHoldsTheCore := fun s =>
  ⟨_, perform_rstN_low s, rfl,
    fun _ _ _ => ⟨step_held rfl rfl (by simp), step_held rfl rfl (by simp), step_held rfl rfl (by simp)⟩,
    step_rstN_rise rfl rfl⟩

/-- Settles O45: the reset state is what a reset makes of itself. -/
theorem resetStateIsSound : Obligations.ResetStateIsSound := resetCore_inv State.reset true

/-! The reset values. -/

/-- ID is the one register that does not read 0 after reset (R230). -/
theorem regValue_reset {r : Reg} (hid : r ≠ .id) : regValue r State.reset = 0#32 := by
  cases r with
  | id => exact absurd rfl hid
  | nonce j => exact Vector.getElem_replicate j.isLt
  | tag j => exact Vector.getElem_replicate j.isLt
  | rtag j => exact Vector.getElem_replicate j.isLt
  | din j => exact Vector.getElem_replicate j.isLt
  | dout j => exact Vector.getElem_replicate j.isLt
  | _ => rfl

/-- ID stands at offset 0 and at no other aligned one (R21). -/
theorem regAt_eq_id_iff {off : BitVec 9} (ha : off.toNat % 4 = 0) : regAt off = .id ↔ off = 0#9 := by
  constructor
  · intro h
    have hoff := offset_regAt ha (by simp [h])
    rw [← hoff, h]
    rfl
  · rintro rfl
    rfl

/-- Settles O27: at offset 0 the register is ID, at every other aligned offset it is not. -/
theorem resetValuesRead : Obligations.ResetValuesRead := by
  refine ⟨fun off ha => ?_, rfl, rfl, rfl, rfl, rfl, rfl, rfl, rfl, by decide⟩
  split_ifs with h0
  · rw [(regAt_eq_id_iff ha).mpr h0]
    rfl
  · exact regValue_reset (mt (regAt_eq_id_iff ha).mp h0)

end Sys2Proof.Machine
end
